-- ==== Sys2Proof/Word.lean ====
section
/-! DEFINITION. The word and byte types of the dp LFSR keystream block.

Bit 0 is the least significant bit everywhere (spec 00_scope.md R10). -/

namespace Sys2Proof

/-- A 32-bit bus data word, register value or command word (10_state.md R20, 20_memory.md R51). -/
abbrev Word := BitVec 32

/-- An 8-bit data byte, keystream byte or DOUT value (10_state.md R28). -/
abbrev Byte := BitVec 8

end Sys2Proof
end

