-- ==== Sys2Proof/Bus.lean ====
section
/-! DEFINITION. The data types of the block's outside: registers by name, bus accesses, responses, and the events a
host can cause (20_memory.md R51, R66; 70_reset_and_hazards.md R150 to R153). -/

namespace Sys2Proof

/-- The named registers of the window (10_state.md R20). Offset 0x1C holds none. -/
inductive Reg where
  | id
  | cmd
  | status
  | len
  | taps
  | state
  | dout
deriving DecidableEq, Repr

/-- The kind of a bus access (20_memory.md R51). -/
inductive AccessKind where
  | read
  | write
deriving DecidableEq, Repr

/-- How many bytes an access covers: a size of 1, 2 or 4, or the byte strobes of an interconnect that has no size
(20_memory.md R51; log 14). -/
inductive Width where
  | one
  | two
  | four
  | strobes (lanes : BitVec 4)
deriving DecidableEq, Repr

/-- A bus access `(kind, off, size, wdata)` (20_memory.md R51). A read does not look at `wdata`. -/
structure BusAccess where
  kind : AccessKind
  off : Fin 32
  width : Width
  wdata : Word
deriving DecidableEq, Repr

/-- The response code of an access (20_memory.md R51). -/
inductive Resp where
  | okay
  | error
deriving DecidableEq, Repr

/-- What the block answers: a response, and for a read also the data word (20_memory.md R51). -/
inductive BusResponse where
  | read (resp : Resp) (rdata : Word)
  | write (resp : Resp)
deriving DecidableEq, Repr

/-- Everything the outside can do to the block (20_memory.md R66). -/
inductive HostEvent where
  /-- One bus access (R51). -/
  | access (a : BusAccess)
  /-- The reset input is asserted between accesses (70_reset_and_hazards.md R150). -/
  | assertReset
  /-- The reset input is released (R150). -/
  | releaseReset
  /-- The reset input is asserted while a CMD write of `w` is stalled (R153). -/
  | resetDuringCommand (w : Word)
  /-- Power or clock is removed, between accesses (60_exceptions.md R146; DESIGN CHOICE, log 19). -/
  | powerLost
deriving DecidableEq, Repr

end Sys2Proof
end

