-- ==== Sys2Proof/Syntax.lean ====
section
/-! DEFINITION. The commands of the block: one constructor per row of spec/opcode_table.json. -/

namespace Sys2Proof

/-- The four commands (30_encoding.md R72). The one operand is CIPHER's data byte, an unsigned 8-bit immediate (R73). -/
inductive Instr where
  /-- NOP, OP 0x0 (41_lfsr.md R103). -/
  | nop
  /-- STEP, OP 0x1 (41_lfsr.md R104). -/
  | step
  /-- KSBYTE, OP 0x2 (42_keystream.md R117). -/
  | ksbyte
  /-- CIPHER, OP 0x3, with its data byte (42_keystream.md R118). -/
  | cipher (data : Byte)
deriving DecidableEq, Repr

end Sys2Proof
end

