-- ==== Sys2Proof/Config.lean ====
section
/-! DEFINITION. What an implementation of the block fixes, and the values the spec leaves open. -/

namespace Sys2Proof

/-- The build parameter NMAX, an integer with 1 <= NMAX <= 32 (00_scope.md R6). A machine carries its own (log 2). -/
structure NMax where
  val : Nat
  pos : 1 ≤ val
  le : val ≤ 32
deriving DecidableEq, Repr

/-- The default build, NMAX = 32 (00_scope.md R6). -/
def NMax.default : NMax := ⟨32, by decide, by decide⟩

/-- BASE, the bus address of byte offset 0x00 of the window, left OPEN (00_scope.md R8; log 3). -/
opaque Config.base : Nat

/-- CMD_LATENCY, the clock cycles a command takes, left OPEN and not observable (00_scope.md R9,
70_reset_and_hazards.md R161; log 3). No rule of the model reads it. -/
opaque Config.cmdLatency : Instr → Nat

/-- FREE VALUE: the response, if any, to a CMD write that a reset cuts short (70_reset_and_hazards.md R153, 93 U8;
log 5). Applied to the draw counter of State. -/
opaque Config.abandonedResponse : Nat → Option Resp

/-- FREE VALUE: STATE of a block that has not been reset since power came (70_reset_and_hazards.md R151, 93 U6, U9;
log 6). -/
opaque Config.unresetLfsr : Nat → Word

/-- FREE VALUE: TAPS of an unreset block (log 6). -/
opaque Config.unresetTaps : Nat → Word

/-- FREE VALUE: LEN of an unreset block (log 6). -/
opaque Config.unresetLen : Nat → BitVec 6

/-- FREE VALUE: DOUT of an unreset block (log 6). -/
opaque Config.unresetDout : Nat → Byte

/-- FREE VALUE: STATUS of an unreset block (log 6). -/
opaque Config.unresetStatus : Nat → BitVec 4

end Sys2Proof
end

