-- ==== Sys2Proof/Decode.lean ====
section
/-! DEFINITION. The command decoder, total over all 2^32 words (30_encoding.md R70), and the encoder. -/

namespace Sys2Proof

/-- The fields of the one command format (30_encoding.md R71). -/
def opField (w : Word) : BitVec 4 := w.extractLsb' 0 4

/-- RSV0, bits 7:4, reserved (30_encoding.md R71). -/
def rsv0Field (w : Word) : BitVec 4 := w.extractLsb' 4 4

/-- DATA, bits 15:8, the data byte of CIPHER (30_encoding.md R71, R73). -/
def dataField (w : Word) : Byte := w.extractLsb' 8 8

/-- RSV1, bits 31:16, reserved (30_encoding.md R71). -/
def rsv1Field (w : Word) : BitVec 16 := w.extractLsb' 16 16

/-- Why a word is no command (the four kinds of 30_encoding.md R75). All four raise ERR_CMD. -/
inductive IllegalCommand where
  /-- OP in 0x4 to 0xF. -/
  | reservedOp
  /-- RSV0 is not 0. -/
  | rsv0NotZero
  /-- RSV1 is not 0. -/
  | rsv1NotZero
  /-- DATA is not 0 with OP in 0x0 to 0x2. -/
  | dataNotZero
deriving DecidableEq, Repr

/-- A row of the table of legal words: `w` is legal for it when `(w AND mask) == pattern` (30_encoding.md R74). -/
structure CommandRow where
  pattern : Word
  mask : Word
deriving DecidableEq, Repr

/-- Does a word match a row (30_encoding.md R74)? -/
def CommandRow.matchesWord (r : CommandRow) (w : Word) : Bool := (w &&& r.mask) == r.pattern

/-- NOP's row (30_encoding.md R74). -/
def rowNop : CommandRow := ⟨0x00000000#32, 0xFFFFFFFF#32⟩

/-- STEP's row (30_encoding.md R74). -/
def rowStep : CommandRow := ⟨0x00000001#32, 0xFFFFFFFF#32⟩

/-- KSBYTE's row (30_encoding.md R74). -/
def rowKsbyte : CommandRow := ⟨0x00000002#32, 0xFFFFFFFF#32⟩

/-- CIPHER's row (30_encoding.md R74). -/
def rowCipher : CommandRow := ⟨0x00000003#32, 0xFFFF00FF#32⟩

/-- The name of an illegal word's first defect (30_encoding.md R75: they may be tested in any order). -/
def whyIllegal (w : Word) : IllegalCommand :=
  if rsv1Field w ≠ 0#16 then .rsv1NotZero
  else if rsv0Field w ≠ 0#4 then .rsv0NotZero
  else if 4#4 ≤ opField w then .reservedOp
  else .dataNotZero

/-- The decoder (30_encoding.md R70): the row a word matches, or why it matches none. -/
def decode (w : Word) : Except IllegalCommand Instr :=
  if rowNop.matchesWord w then .ok .nop
  else if rowStep.matchesWord w then .ok .step
  else if rowKsbyte.matchesWord w then .ok .ksbyte
  else if rowCipher.matchesWord w then .ok (.cipher (dataField w))
  else .error (whyIllegal w)

/-- The word with the given OP and DATA and both reserved fields 0 (30_encoding.md R71). -/
def commandWord (op : BitVec 4) (data : Byte) : Word := 0#16 ++ data ++ 0#4 ++ op

/-- The word of a command (30_encoding.md R71, R72). -/
def encode : Instr → Word
  | .nop => commandWord 0x0#4 0#8
  | .step => commandWord 0x1#4 0#8
  | .ksbyte => commandWord 0x2#4 0#8
  | .cipher data => commandWord 0x3#4 data

/-- The 32-bit command word of a table row's bits; bits above `nbits` are 0. -/
def tableWord (nbits w : Nat) : Word := BitVec.ofNat 32 (w % 2 ^ nbits)

/-- What the decoder reads from a table row's bits. A command is one bus data word, handed to the decoder whole, so no
byte order comes in (20_memory.md R54). -/
def decodeTableWord (nbits w : Nat) : Option Instr :=
  match decode (tableWord nbits w) with
  | .ok i => some i
  | .error _ => none

end Sys2Proof
end

