-- ==== Sys2Proof/Machine/State.lean ====
section
/-! DEFINITION. The state of the block (10_state.md R31), the reasons a step can stop, and the state after reset. -/

namespace Sys2Proof.Machine

/-- The block's whole mutable state (10_state.md R31). STATE and TAPS are NMAX bits wide; they are held in 32 bits
whose bits at NMAX and above are hardwired to 0 (R26, R27; log 9). -/
structure Regs where
  /-- STATE, the LFSR contents (10_state.md R27). -/
  lfsr : Word
  /-- TAPS, the tap mask (10_state.md R26). -/
  taps : Word
  /-- LEN[5:0], the register length n (10_state.md R25). -/
  len : BitVec 6
  /-- DOUT[7:0], the last result (10_state.md R28). -/
  dout : Byte
  /-- STATUS[3:0], the sticky error flags (10_state.md R24). -/
  status : BitVec 4
deriving DecidableEq, Repr

/-- The registers after reset (70_reset_and_hazards.md R150). -/
def Regs.reset : Regs :=
  { lfsr := 0#32, taps := 0#32, len := 0#6, dout := 0#8, status := 0#4 }

/-- The condition of the block: not reset since power came (70_reset_and_hazards.md R151, 60_exceptions.md R146), held
in reset (R150), or running. -/
inductive Phase where
  | unreset
  | inReset
  | running
deriving DecidableEq, Repr

/-- The machine: the block and the two ends of its bus. `inputs`, `outputs` and `draws` are the model's own fields
(logs 1, 7). -/
structure State where
  /-- NMAX, the build parameter; no step changes it (00_scope.md R6; log 2). -/
  nmax : NMax
  /-- The registers. -/
  regs : Regs
  /-- Running, held in reset, or unreset. -/
  phase : Phase
  /-- What the host does next, oldest first (20_memory.md R60, R67; log 1). -/
  inputs : List HostEvent
  /-- What the block has answered, newest first (20_memory.md R51; log 1). -/
  outputs : List BusResponse
  /-- How many free values have been drawn (log 7). -/
  draws : Nat
deriving DecidableEq, Repr

/-- No step of the block faults: an error is a flag in STATUS and the block goes on (60_exceptions.md R130, R138;
log 18). -/
inductive Fault where
deriving DecidableEq, Repr

/-- The situations the spec tells a model to refuse. -/
inductive Refusal where
  /-- Raised by an arm of `exec` whose command has no meaning yet; no arm does. Safe. -/
  | notModelled (mnemonic : String)
  /-- Raised by a bus access while reset is asserted (70_reset_and_hazards.md R152, 93 U7). Safe. -/
  | accessDuringReset
  /-- Raised by a bus access to a block not reset since power came (70_reset_and_hazards.md R151, 60_exceptions.md R146,
  93 U6, U9). Safe. -/
  | accessToUnresetBlock
deriving DecidableEq, Repr

/-- A block of any build right after reset is released (70_reset_and_hazards.md R150). -/
def State.resetOf (nmax : NMax) : State :=
  { nmax := nmax, regs := Regs.reset, phase := .running, inputs := [], outputs := [], draws := 0 }

/-- The default block right after reset (70_reset_and_hazards.md R150, 00_scope.md R6). -/
def State.reset : State := State.resetOf NMax.default

end Sys2Proof.Machine
end

