-- ==== Sys2Proof/Machine/Operands.lean ====
section
/-! DEFINITION. The bit operations the rules are written in (00_scope.md R10 to R13), the register map (10_state.md
R20), and the masks of taps and seeds (40_config.md R85). -/

namespace Sys2Proof.Machine

/-- The word with ones in bits n-1:0. -/
def lowMask (n : Nat) : Word := BitVec.ofNat 32 (2 ^ n - 1)

/-- `zext(w[n-1:0])` (00_scope.md R10). -/
def lowBits (n : Nat) (w : Word) : Word := w &&& lowMask n

/-- The XOR of bits k-1:0. -/
def parityBelow : Nat → Word → Bool
  | 0, _ => false
  | k + 1, w => (parityBelow k w).xor (w.getLsbD k)

/-- `parity(v)`: the XOR of every bit of v (00_scope.md R13). -/
def parity (w : Word) : Bool := parityBelow 32 w

/-- A bit as a word, zero-extended. -/
def bitWord (b : Bool) : Word := (BitVec.ofBool b).setWidth 32

/-- A bit as a byte, `zext_8` (41_lfsr.md R104). -/
def bitByte (b : Bool) : Byte := (BitVec.ofBool b).setWidth 8

/-- `acc[b] <- v` on a byte (42_keystream.md R117). -/
def setByteBit (acc : Byte) (b : Nat) (v : Bool) : Byte :=
  (acc &&& ~~~ (1#8 <<< b)) ||| (bitByte v <<< b)

/-- `mask(T)`: bit t is 1 exactly for t in T; an index listed twice counts once (40_config.md R85, 10_state.md R26,
90_conflicts.md C2). -/
def tapMask : List Nat → Word
  | [] => 0#32
  | t :: ts => (1#32 <<< t) ||| tapMask ts

/-- `pack(s)`: the sum of `s[i] << i` (40_config.md R85). -/
def packBits : List Bool → Word
  | [] => 0#32
  | b :: bs => (packBits bs <<< 1) ||| bitWord b

/-- The byte offset of a register (10_state.md R20). -/
def regOffset : Reg → Fin 32
  | .id => 0x00
  | .cmd => 0x04
  | .status => 0x08
  | .len => 0x0C
  | .taps => 0x10
  | .state => 0x14
  | .dout => 0x18

/-- The register at a byte offset, if one starts there (10_state.md R20). -/
def regAt (off : Fin 32) : Option Reg :=
  match off.val with
  | 0x00 => some .id
  | 0x04 => some .cmd
  | 0x08 => some .status
  | 0x0C => some .len
  | 0x10 => some .taps
  | 0x14 => some .state
  | 0x18 => some .dout
  | _ => none

/-- Does an access cover all four bytes of a word? Byte strobes count as size 4 only when all four lanes are strobed
(20_memory.md R51; log 14). -/
def isFourBytes : Width → Bool
  | .one => false
  | .two => false
  | .four => true
  | .strobes lanes => lanes == 0b1111#4

/-- Byte lane j of a data word, bits [8j+7:8j] (20_memory.md R54). -/
def byteLane (w : Word) (j : Nat) : Byte := w.extractLsb' (8 * j) 8

/-- The byte address of lane j of the word at `off`, BASE + off + j (20_memory.md R54). -/
def laneAddress (off : Fin 32) (j : Nat) : Nat := Config.base + off.val + j

/-- The window offset of a bus address, if the window holds it (20_memory.md R50). -/
def windowOffset (addr : Nat) : Option (Fin 32) :=
  if Config.base ≤ addr then
    if h : addr - Config.base < 32 then some ⟨addr - Config.base, h⟩ else none
  else none

end Sys2Proof.Machine
end

