-- ==== Sys2Proof/Machine/Flags.lean ====
section
/-! DEFINITION. The STATUS flags: what they mean, how one is set, how they are cleared, and the two predicates a stepping
command checks (10_state.md R24, R29; 60_exceptions.md R131). They are the block's only flags (10_state.md R32). -/

namespace Sys2Proof.Machine

/-- The four errors (60_exceptions.md R131). -/
inductive ErrKind where
  /-- ERR_CMD: the word written to CMD is no legal command. -/
  | cmd
  /-- ERR_LEN: a stepping command while LEN is 0 or above NMAX. -/
  | len
  /-- ERR_TAP: a stepping command while a tap index is LEN or more, with LEN legal. -/
  | tap
  /-- ERR_ACC: an illegal bus access. -/
  | acc
deriving DecidableEq, Repr

/-- The code of an error is its STATUS bit number (60_exceptions.md R131). -/
def errCode : ErrKind → Nat
  | .cmd => 0
  | .len => 1
  | .tap => 2
  | .acc => 3

/-- `STATUS[code(kind)] <- 1`, an OR: a flag already set stays set (60_exceptions.md R132). -/
def raiseFlag (k : ErrKind) (status : BitVec 4) : BitVec 4 := status ||| (1#4 <<< errCode k)

/-- `STATUS[3:0] AND NOT v[3:0]`, the write-one-to-clear (40_config.md R89). -/
def clearFlags (status : BitVec 4) (v : Word) : BitVec 4 := status &&& ~~~ (v.extractLsb' 0 4)

/-- `len_ok = (1 <= LEN[5:0] <= NMAX)` (10_state.md R29). -/
def lenOk (nmax : NMax) (r : Regs) : Bool := decide (1 ≤ r.len.toNat) && decide (r.len.toNat ≤ nmax.val)

/-- `taps_ok = ((zext_32(TAPS) >> LEN[5:0]) == 0)`: no tap index is LEN or more (10_state.md R29). -/
def tapsOk (r : Regs) : Bool := (r.taps >>> r.len.toNat) == 0#32

end Sys2Proof.Machine
end

