-- ==== Sys2Proof/Machine/Ops.lean ====
section
/-! DEFINITION. The named operations every meaning is made of: the register reads and writes, recording an error (the
block's whole exception mechanism), the preamble of a stepping command, answering the bus, and reset.

The block has no memory (20_memory.md R50): the registers are all that is read or written. -/

namespace Sys2Proof.Machine

/-- The machine with other registers. -/
def State.setRegs (s : State) (r : Regs) : State := { s with regs := r }

/-- The block answers the host (20_memory.md R51). -/
def State.respond (s : State) (r : BusResponse) : State := { s with outputs := r :: s.outputs }

/-- `raise Error(kind)`: the flag is set and nothing else changes (60_exceptions.md R132). There is no trap to take and
none to return from (R130, R138, R139). -/
def raiseError (k : ErrKind) (s : State) : State :=
  s.setRegs { s.regs with status := raiseFlag k s.regs.status }

/-- ID: "LF", the version 1, NMAX (10_state.md R22). -/
def idWord (nmax : NMax) : Word := 0x4C46#16 ++ 0x01#8 ++ BitVec.ofNat 8 nmax.val

/-- The read value of a register (20_memory.md R52); CMD reads 0. -/
def readReg (r : Reg) (s : State) : Word :=
  match r with
  | .id => idWord s.nmax
  | .cmd => 0#32
  | .status => s.regs.status.setWidth 32
  | .len => s.regs.len.setWidth 32
  | .taps => s.regs.taps
  | .state => s.regs.lfsr
  | .dout => s.regs.dout.setWidth 32

/-- WR LEN: `LEN <- v[5:0]`, legal or not (40_config.md R86). -/
def writeLen (v : Word) (s : State) : State :=
  s.setRegs { s.regs with len := v.extractLsb' 0 6 }

/-- WR TAPS: `TAPS <- v[NMAX-1:0]` (40_config.md R87). -/
def writeTaps (v : Word) (s : State) : State :=
  s.setRegs { s.regs with taps := lowBits s.nmax.val v }

/-- WR STATE: `STATE <- v[NMAX-1:0]` (40_config.md R88). -/
def writeState (v : Word) (s : State) : State :=
  s.setRegs { s.regs with lfsr := lowBits s.nmax.val v }

/-- WR STATUS: the flags written as 1 are cleared (40_config.md R89). -/
def writeStatus (v : Word) (s : State) : State :=
  s.setRegs { s.regs with status := clearFlags s.regs.status v }

/-- The preamble of a stepping command (41_lfsr.md R102): the length n, or the error to raise. LEN is checked first, and
TAPS only when LEN is legal (60_exceptions.md R134). -/
def preamble (s : State) : Except ErrKind Nat :=
  if lenOk s.nmax s.regs then
    if tapsOk s.regs then .ok s.regs.len.toNat else .error .tap
  else .error .len

/-- A stepping command: the preamble, then `run n` on the registers, or the error and nothing else (41_lfsr.md R102). -/
def stepping (run : Nat → Regs → Regs) (s : State) : Host.Outcome State Fault Refusal :=
  match preamble s with
  | .ok n => .next (s.setRegs (run n s.regs))
  | .error k => .next (raiseError k s)

/-- An outcome's next state answers the host; a stop stays a stop. -/
def answering (r : BusResponse) : Host.Outcome State Fault Refusal → Host.Outcome State Fault Refusal
  | .next s => .next (s.respond r)
  | .fault f => .fault f
  | .refused f => .refused f

/-- The reset input is asserted: every register takes its reset value and the block is held (70_reset_and_hazards.md
R150). -/
def State.assertReset (s : State) : State := { s with regs := Regs.reset, phase := .inReset }

/-- The reset input is released: a block held in reset runs; a block that was not stays as it is (R150; log 10). -/
def State.releaseReset (s : State) : State :=
  match s.phase with
  | .inReset => { s with phase := .running }
  | .running => s
  | .unreset => s

/-- The stalled CMD write that a reset cuts short: the block is in reset, and the host gets the free response, if any
(70_reset_and_hazards.md R153, 93 U8; log 5). -/
def State.abandonCommand (s : State) : State :=
  { s.assertReset with
    outputs := (Config.abandonedResponse s.draws).toList.map .write ++ s.outputs
    draws := s.draws + 1 }

/-- The registers of a block not reset since power came: free, but for the hardwired zeros (70_reset_and_hazards.md
R151, 10_state.md R26, R27; log 6). -/
def unresetRegs (nmax : NMax) (draw : Nat) : Regs :=
  { lfsr := lowBits nmax.val (Config.unresetLfsr draw)
    taps := lowBits nmax.val (Config.unresetTaps draw)
    len := Config.unresetLen draw
    dout := Config.unresetDout draw
    status := Config.unresetStatus draw }

/-- Power or clock is removed: the registers are no longer specified, and the block must be reset (60_exceptions.md
R146; log 6). It happens between accesses, so no access is answered here (log 19).
DESIGN CHOICE (log 20): the block does not keep that reset was asserted; a reset must be asserted anew, and a release before
that leaves it unreset. -/
def State.losePower (s : State) : State :=
  { s with regs := unresetRegs s.nmax s.draws, phase := .unreset, draws := s.draws + 1 }

end Sys2Proof.Machine
end

