-- ==== Sys2Proof/Machine/Lfsr.lean ====
section
/-! DEFINITION. The LFSR shift and the commands NOP and STEP (41_lfsr.md). -/

namespace Sys2Proof.Machine

/-- The feedback bit `parity(STATE[n-1:0] AND TAPS[n-1:0])`, from the state before the shift (41_lfsr.md R100). -/
def feedback (n : Nat) (taps lfsr : Word) : Bool := parity (lowBits n lfsr &&& lowBits n taps)

/-- The output bit `STATE[0]`, read before the update (41_lfsr.md R101). -/
def outBit (lfsr : Word) : Bool := lfsr.getLsbD 0

/-- The next state `zext({fb, STATE[n-1:1]})`; at n = 1 the slice is empty and this is `zext(fb)` (41_lfsr.md R101).
Bits n and above become 0. -/
def shiftWord (n : Nat) (taps lfsr : Word) : Word :=
  (lowBits n lfsr >>> 1) ||| (bitWord (feedback n taps lfsr) <<< (n - 1))

/-- STATE after k shifts (41_lfsr.md R101). -/
def shifts (n : Nat) (taps : Word) : Nat → Word → Word
  | 0, lfsr => lfsr
  | k + 1, lfsr => shifts n taps k (shiftWord n taps lfsr)

/-- STEP's effect on the registers, its checks passed (41_lfsr.md R104). -/
def stepRegs (n : Nat) (r : Regs) : Regs :=
  { r with lfsr := shiftWord n r.taps r.lfsr, dout := bitByte (outBit r.lfsr) }

/-- NOP: no operation; LEN and TAPS are not looked at (41_lfsr.md R103). -/
def execNop (s : State) : Host.Outcome State Fault Refusal := .next s

/-- STEP: one shift, with its output bit to DOUT (41_lfsr.md R104). -/
def execStep (s : State) : Host.Outcome State Fault Refusal := stepping stepRegs s

end Sys2Proof.Machine
end

