-- ==== Sys2Proof/Machine/Keystream.lean ====
section
/-! DEFINITION. The keystream packer and the commands KSBYTE and CIPHER (42_keystream.md). -/

namespace Sys2Proof.Machine

/-- The loop `for b in 0 .. 7` of 42_keystream.md R117 after its first b rounds: the partial byte and STATE. Round b
puts its output bit into bit b, least significant bit first (R116). -/
def packLoop (n : Nat) (taps lfsr : Word) : Nat → Byte × Word
  | 0 => (0#8, lfsr)
  | b + 1 =>
    let before := packLoop n taps lfsr b
    (setByteBit before.1 b (outBit before.2), shiftWord n taps before.2)

/-- The keystream byte that starts at this STATE (42_keystream.md R115, R117). -/
def keystreamByte (n : Nat) (taps lfsr : Word) : Byte := (packLoop n taps lfsr 8).1

/-- STATE after the 8 shifts of a keystream byte (42_keystream.md R117). -/
def keystreamNext (n : Nat) (taps lfsr : Word) : Word := (packLoop n taps lfsr 8).2

/-- KSBYTE's effect on the registers, its checks passed (42_keystream.md R117). -/
def ksbyteRegs (n : Nat) (r : Regs) : Regs :=
  { r with lfsr := keystreamNext n r.taps r.lfsr, dout := keystreamByte n r.taps r.lfsr }

/-- CIPHER's effect on the registers, its checks passed: `DOUT <- d XOR acc` (42_keystream.md R118). -/
def cipherRegs (data : Byte) (n : Nat) (r : Regs) : Regs :=
  { r with lfsr := keystreamNext n r.taps r.lfsr, dout := data ^^^ keystreamByte n r.taps r.lfsr }

/-- KSBYTE: one keystream byte to DOUT (42_keystream.md R117). -/
def execKsbyte (s : State) : Host.Outcome State Fault Refusal := stepping ksbyteRegs s

/-- CIPHER: the data byte XOR the next keystream byte to DOUT (42_keystream.md R118). -/
def execCipher (data : Byte) (s : State) : Host.Outcome State Fault Refusal := stepping (cipherRegs data) s

end Sys2Proof.Machine
end

