-- ==== Sys2Proof/Machine/Dispatch.lean ====
section
/-! DEFINITION. What each command does: one arm per constructor of Instr. -/

namespace Sys2Proof.Machine

/-- The command's rule (30_encoding.md R70, R72). -/
def exec (i : Instr) (s : State) : Host.Outcome State Fault Refusal :=
  match i with
  | .nop => Sys2Proof.Machine.execNop s
  | .step => Sys2Proof.Machine.execStep s
  | .ksbyte => Sys2Proof.Machine.execKsbyte s
  | .cipher data => Sys2Proof.Machine.execCipher data s

end Sys2Proof.Machine
end

