-- ==== Sys2Proof/Machine/Access.lean ====
section
/-! DEFINITION. What the block does with a bus access and with every other event of its outside (20_memory.md R51 to
R55; 70_reset_and_hazards.md R150 to R153). -/

namespace Sys2Proof.Machine

/-- An access is illegal if any of (a) to (d) holds (20_memory.md R55): its size is not 4, it is misaligned, it is at the
reserved slot 0x1C, or it is a write to ID or DOUT. -/
def illegalAccess (a : BusAccess) : Bool :=
  !isFourBytes a.width
  || decide (a.off.val % 4 ≠ 0)
  || decide (a.off.val = 0x1C)
  || (decide (a.kind = .write) && (decide (a.off.val = 0x00) || decide (a.off.val = 0x18)))

/-- The register a legal access reaches (10_state.md R20); none for an illegal access (20_memory.md R55). -/
def accessTarget (a : BusAccess) : Option Reg :=
  if illegalAccess a then none else regAt a.off

/-- The answer to an illegal access: ERROR, and rdata 0 for a read (20_memory.md R55). -/
def errorResponse : AccessKind → BusResponse
  | .read => .read .error 0#32
  | .write => .write .error

/-- A legal CMD write: the word is decoded and its command runs, or ERR_CMD is raised and nothing else changes
(30_encoding.md R70, R75). -/
def writeCmd (w : Word) (s : State) : Host.Outcome State Fault Refusal :=
  match decode w with
  | .ok i => exec i s
  | .error _ => .next (raiseError .cmd s)

/-- The write action of a register (20_memory.md R53). A write to ID or DOUT never comes here, since it is an illegal
access (R55); it would change nothing but the flag of that error (10_state.md R22, R28). -/
def writeReg (r : Reg) (v : Word) (s : State) : Host.Outcome State Fault Refusal :=
  match r with
  | .cmd => writeCmd v s
  | .status => .next (writeStatus v s)
  | .len => .next (writeLen v s)
  | .taps => .next (writeTaps v s)
  | .state => .next (writeState v s)
  | .id => .next (raiseError .acc s)
  | .dout => .next (raiseError .acc s)

/-- One bus access to a running block: MemRead and MemWrite (20_memory.md R52, R53, R55). A CMD write whose command
raises an error still answers OKAY (R53). -/
def busAccess (a : BusAccess) (s : State) : Host.Outcome State Fault Refusal :=
  match accessTarget a with
  | none => .next ((raiseError .acc s).respond (errorResponse a.kind))
  | some r =>
    match a.kind with
    | .read => .next (s.respond (.read .okay (readReg r s)))
    | .write => answering (.write .okay) (writeReg r a.wdata s)

/-- What only a running block does. The spec has a model refuse an access in any other phase (70_reset_and_hazards.md
R151, R152; 93 U6, U7, U9; log 4). -/
def whenRunning (act : State → Host.Outcome State Fault Refusal) (s : State) : Host.Outcome State Fault Refusal :=
  match s.phase with
  | .running => act s
  | .inReset => .refused .accessDuringReset
  | .unreset => .refused .accessToUnresetBlock

/-- One event of the block's outside. DESIGN CHOICE (log 19): power or clock goes only between accesses; the spec is
silent on its going while a CMD write is stalled, since 70_reset_and_hazards.md R153 speaks of reset alone. DESIGN
CHOICE (log 20): power or clock that goes while reset is asserted ends the reset, too. -/
def handleEvent (e : HostEvent) (s : State) : Host.Outcome State Fault Refusal :=
  match e with
  | .access a => whenRunning (busAccess a) s
  | .assertReset => .next s.assertReset
  | .releaseReset => .next s.releaseReset
  | .resetDuringCommand _ => whenRunning (fun s => .next s.abandonCommand) s
  | .powerLost => .next s.losePower

/-- The machine with its next event taken off the list. -/
def State.withInputs (s : State) (es : List HostEvent) : State := { s with inputs := es }

/-- The block meets its next event, and stays as it is when there is none (20_memory.md R66, 60_exceptions.md R146;
log 11). -/
def nextTransition (s : State) : Host.Outcome State Fault Refusal :=
  match s.inputs with
  | [] => .next s
  | e :: rest => handleEvent e (s.withInputs rest)

/-- `MemWrite(off(r), 4, v)` (00_scope.md R14, 30_encoding.md R77). -/
def wrAccess (r : Reg) (v : Word) : BusAccess :=
  { kind := .write, off := regOffset r, width := .four, wdata := v }

/-- `MemRead(off(r), 4)` (00_scope.md R14, 30_encoding.md R77). -/
def rdAccess (r : Reg) : BusAccess :=
  { kind := .read, off := regOffset r, width := .four, wdata := 0#32 }

/-- The machine with a CMD write of `w` as the host's next event, to a running block (log 8). -/
def State.issueCommand (s : State) (w : Word) : State :=
  { s with phase := .running, inputs := .access (wrAccess .cmd w) :: s.inputs }

end Sys2Proof.Machine
end

