-- ==== Sys2Proof/Machine/Step.lean ====
section
/-! DEFINITION. One step of the machine: one atomic transition of 00_scope.md R15 and 20_memory.md R60. -/

namespace Sys2Proof.Machine

/-- One step: the block meets the next event of its outside. -/
def step (s : State) : Host.Outcome State Fault Refusal := nextTransition s

/-- The machine whose next step runs the command with these bits (log 8). -/
def State.withFetchWord (s : State) (nbits w : Nat) : State := s.issueCommand (tableWord nbits w)

end Sys2Proof.Machine
end

