-- ==== Sys2Proof/Machine/Engine.lean ====
section
/-! DEFINITION. The source's software engine, as the spec quotes it: `state[0..n-1]` is a list and the taps are a set of
indices (00_scope.md R12, 41_lfsr.md R101, R105, 42_keystream.md R115, R120). It is no part of the machine: it is what the
block is compared with (log 16). -/

namespace Sys2Proof.Machine

/-- The engine `new(T, s)`. The set of taps is a list with no index twice (log 16). -/
structure Engine where
  taps : List Nat
  state : List Bool
deriving DecidableEq, Repr

/-- A seed and a tap set that 40_config.md R93 speaks of: 1 <= n <= NMAX, T within [0, n), no index twice. -/
def Engine.fits (nmax : NMax) (e : Engine) : Bool :=
  decide (1 ≤ e.state.length) && decide (e.state.length ≤ nmax.val)
    && decide e.taps.Nodup && e.taps.all fun t => decide (t < e.state.length)

/-- `XOR-parity(state[t] for t in taps)` (41_lfsr.md R100). -/
def Engine.feedback (e : Engine) : Bool := e.taps.foldr (fun t acc => (e.state.getD t false).xor acc) false

/-- `state[0]`, the output bit. -/
def Engine.out (e : Engine) : Bool := e.state.headD false

/-- `state = state[1:] + [feedback]` (41_lfsr.md R101). -/
def Engine.shift (e : Engine) : Engine := { e with state := e.state.tail ++ [e.feedback] }

/-- The engine after k shifts. -/
def Engine.after : Nat → Engine → Engine
  | 0, e => e
  | k + 1, e => Engine.after k e.shift

/-- `generate_sequence(k)`: k times, record `state[0]` and shift (41_lfsr.md R105). -/
def Engine.generateSequence : Nat → Engine → List Bool
  | 0, _ => []
  | k + 1, e => e.out :: Engine.generateSequence k e.shift

/-- "Bit b of byte i contributes `bit << b`": 8 bits as a byte, the first one in bit 0 (42_keystream.md R115, R116). -/
def byteOfBits (bits : List Bool) : Byte := (packBits bits).setWidth 8

/-- Byte i of the bit stream, its bits 8i to 8i+7 (42_keystream.md R115). -/
def streamByte (bits : List Bool) (i : Nat) : Byte := byteOfBits ((bits.drop (8 * i)).take 8)

/-- The payload part of `cipher_file`: `8 * L` bits are generated and byte i of the data is XORed with byte i of them
(42_keystream.md R120). -/
def Engine.cipherPayload (e : Engine) (payload : List Byte) : List Byte :=
  payload.mapIdx fun i p => p ^^^ streamByte (e.generateSequence (8 * payload.length)) i

end Sys2Proof.Machine
end

