-- ==== Sys2Proof/HostSyntax.lean ====
section
/-! DEFINITION. The statements of the host assembly of 30_encoding.md R77 and R78, as the host writes them: numbers are
integers here, so that a malformed one can be written down and refused (WellFormed.lean). -/

namespace Sys2Proof

/-- One host statement. A loop is no statement of its own: it is unrolled by `hostLoop` (Machine/HostAsm.lean; log 15). -/
inductive HostStmt where
  /-- `RD <reg>` (R77). -/
  | rd (r : Reg)
  /-- `WR <reg>, <imm32>` (R77). -/
  | wr (r : Reg) (imm : Word)
  /-- `NOP` (R77). -/
  | nop
  /-- `STEP` (R77). -/
  | step
  /-- `KSBYTE` (R77). -/
  | ksbyte
  /-- `CIPHER <imm8>` (R77). -/
  | cipher (imm8 : Int)
  /-- `BUS <kind>, <off>, <size>[, <wdata>]`, the raw access (R77). -/
  | bus (a : BusAccess)
  /-- `SETLEN n` (R78). -/
  | setLen (n : Word)
  /-- `SETTAPS t1 t2 ...` (R78). -/
  | setTaps (taps : List Int)
  /-- `SEED [s0, ...]` (R78). -/
  | seed (bits : List Int)
  /-- `NEW [taps], [seed]` (R78). -/
  | new (taps : List Int) (bits : List Int)
  /-- `GETBIT` (R78). -/
  | getBit
  /-- `GETBYTE` (R78). -/
  | getByte
  /-- `XORBYTE d` (R78). -/
  | xorByte (d : Int)
  /-- `CLRERR` (R78). -/
  | clrErr
deriving DecidableEq, Repr

end Sys2Proof
end

