-- ==== Sys2Proof/WellFormed.lean ====
section
/-! DEFINITION. Which syntax is well formed: commands (all of them, by their type) and host statements (the checks of
the assembler, 30_encoding.md R77 and R78, 92_eei_decisions.md D24). -/

namespace Sys2Proof

/-- A command is well formed when its immediate is one the word has room for: DATA is 8 bits, 0 to 255 (30_encoding.md
R73). The type of `data` already says so. -/
def Instr.wf : Instr → Bool
  | .nop => true
  | .step => true
  | .ksbyte => true
  | .cipher data => decide (data.toNat ≤ 255)

/-- `imm8` must be in 0 to 255, and an assembler refuses any other value (30_encoding.md R77). -/
def wfImm8 (d : Int) : Bool := decide (0 ≤ d) && decide (d ≤ 255)

/-- An assembler refuses SETTAPS with an index below 0 or at or above NMAX (30_encoding.md R78). -/
def wfTaps (nmax : NMax) (taps : List Int) : Bool :=
  taps.all fun t => decide (0 ≤ t) && decide (t < nmax.val)

/-- An assembler refuses SEED with an empty list, a list longer than NMAX, or an element other than 0 or 1
(30_encoding.md R78). -/
def wfSeed (nmax : NMax) (bits : List Int) : Bool :=
  !bits.isEmpty && decide (bits.length ≤ nmax.val) && bits.all fun b => decide (b = 0) || decide (b = 1)

/-- Well-formed host statements. -/
def HostStmt.wf (nmax : NMax) : HostStmt → Bool
  | .rd _ => true
  | .wr _ _ => true
  | .nop => true
  | .step => true
  | .ksbyte => true
  | .cipher d => wfImm8 d
  | .bus _ => true
  | .setLen _ => true
  | .setTaps taps => wfTaps nmax taps
  | .seed bits => wfSeed nmax bits
  | .new taps bits => wfTaps nmax taps && wfSeed nmax bits
  | .getBit => true
  | .getByte => true
  | .xorByte d => wfImm8 d
  | .clrErr => true

end Sys2Proof
end

