-- ==== Sys2Proof/Machine/HostAsm.lean ====
section
/-! DEFINITION. The host assembly: what accesses a statement stands for (30_encoding.md R77, R78). The block sees only
the accesses. -/

namespace Sys2Proof.Machine

/-- `SETTAPS`: one write of the OR of the indices' bits, duplicates merged (30_encoding.md R78). -/
def setTapsAccesses (taps : List Int) : List BusAccess := [wrAccess .taps (tapMask (taps.map Int.toNat))]

/-- `SEED`: the packed seed to STATE, then its length to LEN (30_encoding.md R78). -/
def seedAccesses (bits : List Int) : List BusAccess :=
  [wrAccess .state (packBits (bits.map fun b => decide (b = 1))), wrAccess .len (BitVec.ofNat 32 bits.length)]

/-- A CMD write of a command (30_encoding.md R77). -/
def commandAccess (i : Instr) : BusAccess := wrAccess .cmd (encode i)

/-- The accesses of a well-formed statement (30_encoding.md R77, R78). -/
def stmtAccesses : HostStmt → List BusAccess
  | .rd r => [rdAccess r]
  | .wr r v => [wrAccess r v]
  | .nop => [commandAccess .nop]
  | .step => [commandAccess .step]
  | .ksbyte => [commandAccess .ksbyte]
  | .cipher d => [commandAccess (.cipher (BitVec.ofInt 8 d))]
  | .bus a => [a]
  | .setLen n => [wrAccess .len n]
  | .setTaps taps => setTapsAccesses taps
  | .seed bits => seedAccesses bits
  | .new taps bits => setTapsAccesses taps ++ seedAccesses bits
  | .getBit => [commandAccess .step, rdAccess .dout]
  | .getByte => [commandAccess .ksbyte, rdAccess .dout]
  | .xorByte d => [commandAccess (.cipher (BitVec.ofInt 8 d)), rdAccess .dout]
  | .clrErr => [wrAccess .status 0x0000000F#32]

/-- The assembler: a program's accesses, or none when it refuses a statement (30_encoding.md R77, R78). -/
def assemble (nmax : NMax) (program : List HostStmt) : Option (List BusAccess) :=
  if program.all (HostStmt.wf nmax) then some (program.flatMap stmtAccesses) else none

/-- `loop i = 0 .. k-1 { ... }`: the body once for each i, in order (30_encoding.md R77; log 15). -/
def hostLoop (k : Nat) (body : Nat → List HostStmt) : List HostStmt := (List.range k).flatMap body

/-- The events of a list of accesses. -/
def accessEvents (accesses : List BusAccess) : List HostEvent := accesses.map .access

end Sys2Proof.Machine
end

