-- ==== Sys2Proof/Safety.lean ====
section
/-! DEFINITION. The words claims are stated in: the invariant of the machine, runs, a configured block, and a host that
keeps its duties. -/

namespace Sys2Proof.Machine

/-- Bits 31 down to NMAX of STATE and TAPS are 0 (10_state.md R26, R27). -/
abbrev Regs.Hardwired (nmax : NMax) (r : Regs) : Prop :=
  lowBits nmax.val r.lfsr = r.lfsr ∧ lowBits nmax.val r.taps = r.taps

/-- The invariant: the hardwired bits are 0, and a block held in reset has the reset values (10_state.md R26, R27;
70_reset_and_hazards.md R150). -/
abbrev State.Inv (s : State) : Prop :=
  s.regs.Hardwired s.nmax ∧ (s.phase = .inReset → s.regs = Regs.reset)

/-- A stepping command of this machine passes its checks (10_state.md R29). -/
abbrev State.Configured (s : State) : Prop := lenOk s.nmax s.regs = true ∧ tapsOk s.regs = true

/-- k steps, stopping at the first stop. -/
def run : Nat → State → Host.Outcome State Fault Refusal
  | 0, s => .next s
  | k + 1, s =>
    match step s with
    | .next t => run k t
    | .fault f => .fault f
    | .refused f => .refused f

/-- The phase after an event of a host that keeps its duties, none where it does not: no bus access while reset is
asserted or before the first reset (70_reset_and_hazards.md R151, R152). Loss of power ends a reset that is asserted
(DESIGN CHOICE, log 20). -/
def phaseAfter : Phase → HostEvent → Option Phase
  | .running, .access _ => some .running
  | .inReset, .access _ => none
  | .unreset, .access _ => none
  | _, .assertReset => some .inReset
  | .inReset, .releaseReset => some .running
  | .running, .releaseReset => some .running
  | .unreset, .releaseReset => some .unreset
  | .running, .resetDuringCommand _ => some .inReset
  | .inReset, .resetDuringCommand _ => none
  | .unreset, .resetDuringCommand _ => none
  | _, .powerLost => some .unreset

/-- A host that keeps those duties all along. -/
def wellDriven : Phase → List HostEvent → Bool
  | _, [] => true
  | p, e :: es =>
    match phaseAfter p e with
    | some q => wellDriven q es
    | none => false

/-- The block configured as `new(T, s)`: the correspondence of registers and engine (40_config.md R93). -/
abbrev State.Holds (s : State) (e : Engine) : Prop :=
  s.regs.len.toNat = e.state.length
    ∧ lowBits e.state.length s.regs.lfsr = packBits e.state
    ∧ s.regs.taps = tapMask e.taps

/-- The stepping commands (30_encoding.md R72). -/
def isStepping : Instr → Bool
  | .nop => false
  | .step => true
  | .ksbyte => true
  | .cipher _ => true

/-- How many shifts a command makes when it succeeds (30_encoding.md R72). -/
def shiftCount : Instr → Nat
  | .nop => 0
  | .step => 1
  | .ksbyte => 8
  | .cipher _ => 8

/-- The feedback bit written out: the XOR over the indices below n of the tapped state bits (41_lfsr.md R100). -/
def tappedParity (n : Nat) (taps lfsr : Word) : Bool :=
  (List.range n).foldr (fun i acc => (lfsr.getLsbD i && taps.getLsbD i).xor acc) false

/-- Commands run one after the other. -/
def execAll : List Instr → State → Host.Outcome State Fault Refusal
  | [], s => .next s
  | i :: is, s =>
    match exec i s with
    | .next t => execAll is t
    | .fault f => .fault f
    | .refused f => .refused f

/-- The machine with another LFSR contents. -/
def State.withLfsr (s : State) (x : Word) : State := s.setRegs { s.regs with lfsr := x }

/-- STATE after a STEP from contents x, the rest of the machine as in s. -/
def stepLfsr (s : State) (x : Word) : Option Word :=
  match exec .step (s.withLfsr x) with
  | .next t => some t.regs.lfsr
  | .fault _ => none
  | .refused _ => none

/-- An access that 20_memory.md R55 calls illegal. -/
abbrev AccessIllegal (a : BusAccess) : Prop :=
  isFourBytes a.width = false ∨ a.off.val % 4 ≠ 0 ∨ a.off.val = 0x1C
    ∨ (a.kind = .write ∧ (a.off.val = 0x00 ∨ a.off.val = 0x18))

/-- The error of a stepping command: LEN first, then TAPS (60_exceptions.md R134). -/
def steppingError (s : State) : Option ErrKind :=
  if s.regs.len.toNat = 0 ∨ s.nmax.val < s.regs.len.toNat then some .len
  else if (List.range 32).any (fun t => decide (s.regs.len.toNat ≤ t) && s.regs.taps.getLsbD t) then some .tap
  else none

/-- The one error of an access, by the order of the checks (60_exceptions.md R134). -/
def errorOf (s : State) (a : BusAccess) : Option ErrKind :=
  if AccessIllegal a then some .acc
  else if a.kind = .write ∧ a.off.val = 0x04 then
    match decode a.wdata with
    | .error _ => some .cmd
    | .ok .nop => none
    | .ok .step => steppingError s
    | .ok .ksbyte => steppingError s
    | .ok (.cipher _) => steppingError s
  else none

/-- The three writes of a construction (40_config.md R85). -/
def configAccesses (e : Engine) : List BusAccess :=
  [wrAccess .taps (tapMask e.taps), wrAccess .state (packBits e.state), wrAccess .len (BitVec.ofNat 32 e.state.length)]

/-- k times STEP and a read of DOUT (41_lfsr.md R105). -/
def bitAccesses (k : Nat) : List BusAccess :=
  (List.replicate k [commandAccess .step, rdAccess .dout]).flatten

/-- One CIPHER and one read of DOUT for each byte (42_keystream.md R120). -/
def cipherAccesses (payload : List Byte) : List BusAccess :=
  payload.flatMap fun p => [commandAccess (.cipher p), rdAccess .dout]

/-- What the host gets back for commands each followed by a read of DOUT, in order. -/
def doutAnswers (bytes : List Byte) : List BusResponse :=
  bytes.flatMap fun b => [.write .okay, .read .okay (b.setWidth 32)]

/-- The machine whose host makes these accesses next, and then goes on as before. -/
def State.driven (s : State) (accesses : List BusAccess) : State :=
  s.withInputs (accessEvents accesses ++ s.inputs)

end Sys2Proof.Machine
end

