-- ==== Sys2Proof/Certificates/Slice0/Obligations.lean ====
section
/-! DEFINITION. The statements for the provers. Each docstring names the rules it rests on. -/

open Sys2Proof Sys2Proof.Machine

/-! ### Commands as words -/

/-- 95_test_vectors.md V-EN-1 to V-EN-15: what the words written out there decode to. -/
def Obligations.WordsDecodeAsTheirVectorsSay : Prop :=
  decode 0x00000000#32 = .ok .nop ∧ decode 0x00000001#32 = .ok .step ∧ decode 0x00000002#32 = .ok .ksbyte
    ∧ decode 0x00000003#32 = .ok (.cipher 0x00#8) ∧ decode 0x0000AB03#32 = .ok (.cipher 0xAB#8)
    ∧ decode 0x0000FF03#32 = .ok (.cipher 0xFF#8)
    ∧ decode 0x00000004#32 = .error .reservedOp ∧ decode 0x0000000F#32 = .error .reservedOp
    ∧ decode 0x00000010#32 = .error .rsv0NotZero ∧ decode 0x00000013#32 = .error .rsv0NotZero
    ∧ decode 0x00000101#32 = .error .dataNotZero ∧ decode 0x00000102#32 = .error .dataNotZero
    ∧ decode 0x00010003#32 = .error .rsv1NotZero ∧ decode 0x80000001#32 = .error .rsv1NotZero
    ∧ decode 0xFFFFFFFF#32 = .error .rsv1NotZero

/-- Decode and encode agree in both directions, over all 2^32 words (30_encoding.md R70, R71, R74). -/
def Obligations.DecodeReadsExactlyTheEncodedWord : Prop :=
  ∀ (w : Word) (i : Instr), decode w = .ok i ↔ w = encode i

/-- 30_encoding.md, the table of legal words: each command is read from exactly the words of its row, the rows do not
overlap, and there are 259 legal words. (The sentence on the overlap and the count is an inference the spec marks as its
own.) -/
def Obligations.LegalWordsAreTheFourRows : Prop :=
  (∀ w : Word,
      (decode w = .ok .nop ↔ w &&& 0xFFFFFFFF#32 = 0x00000000#32)
      ∧ (decode w = .ok .step ↔ w &&& 0xFFFFFFFF#32 = 0x00000001#32)
      ∧ (decode w = .ok .ksbyte ↔ w &&& 0xFFFFFFFF#32 = 0x00000002#32)
      ∧ ((∃ d, decode w = .ok (.cipher d)) ↔ w &&& 0xFFFF00FF#32 = 0x00000003#32)
      ∧ (∀ d, decode w = .ok (.cipher d) → ∀ b, b < 8 → d.getLsbD b = w.getLsbD (8 + b)))
    ∧ (∀ w : Word, ∀ r ∈ [rowNop, rowStep, rowKsbyte, rowCipher], ∀ q ∈ [rowNop, rowStep, rowKsbyte, rowCipher],
        r.matchesWord w = true → q.matchesWord w = true → r = q)
    ∧ (∃ l : List Word, l.Nodup ∧ l.length = 259 ∧ ∀ w, w ∈ l ↔ ∃ i, decode w = .ok i)

/-- 30_encoding.md R75: which words are illegal, and that writing one to CMD sets ERR_CMD and changes nothing else. -/
def Obligations.IllegalWordsOnlySetErrCmd : Prop :=
  ∀ w : Word,
    ((∃ why, decode w = .error why) ↔
      (4 ≤ (w.extractLsb' 0 4).toNat ∨ w.extractLsb' 4 4 ≠ 0#4 ∨ w.extractLsb' 16 16 ≠ 0#16
        ∨ (w.extractLsb' 8 8 ≠ 0#8 ∧ (w.extractLsb' 0 4).toNat ≤ 2)))
    ∧ ∀ (s : State) (rest : List HostEvent) (why : IllegalCommand),
        s.phase = .running → s.inputs = .access (wrAccess .cmd w) :: rest → decode w = .error why →
        step s = .next { s with
          inputs := rest
          outputs := .write .okay :: s.outputs
          regs := { s.regs with status := s.regs.status ||| 0b0001#4 } }

/-- When the host's next access is a write of a legal word to CMD, a step runs the command and answers OKAY, in one step
(20_memory.md R53, 30_encoding.md R70; log 12). The second part says that `withFetchWord`, the model's own, sets up exactly
that (log 8). -/
def Obligations.StepRunsTheDecodedCommand : Prop :=
  (∀ (s : State) (a : BusAccess) (rest : List HostEvent) (i : Instr),
      s.phase = .running → s.inputs = .access a :: rest → a.kind = .write → a.off.val = 0x04 →
      isFourBytes a.width = true → decode a.wdata = .ok i →
      step s =
        match exec i { s with inputs := rest } with
        | .next t => .next { t with outputs := .write .okay :: t.outputs }
        | .fault f => .fault f
        | .refused f => .refused f)
    ∧ ∀ (s : State) (w : Word) (i : Instr), decode w = .ok i →
      step (s.withFetchWord 32 w.toNat) =
        match exec i { s with phase := .running } with
        | .next t => .next { t with outputs := .write .okay :: t.outputs }
        | .fault f => .fault f
        | .refused f => .refused f

/-! ### What the commands do -/

/-- 41_lfsr.md R103: NOP completes in every state, whatever LEN and TAPS hold, and changes nothing. -/
def Obligations.NopChangesNothing : Prop :=
  encode .nop = 0x00000000#32 ∧ ∀ s : State, exec .nop s = .next s

/-- 41_lfsr.md R100, R101 through STEP: with its checks passed it completes, outputs the old bit 0, moves every bit of the
LFSR down by one, puts the parity of the tapped bits into bit n-1, clears the bits above, and changes nothing else. -/
def Obligations.StepMakesOneShift : Prop :=
  ∀ s : State, s.Configured →
    ∃ t, exec .step s = .next t
      ∧ t = { s with regs := { s.regs with lfsr := t.regs.lfsr, dout := t.regs.dout } }
      ∧ (∀ b, b < 8 → t.regs.dout.getLsbD b = (decide (b = 0) && s.regs.lfsr.getLsbD 0))
      ∧ ∀ i, i < 32 → t.regs.lfsr.getLsbD i =
          if i + 1 < s.regs.len.toNat then s.regs.lfsr.getLsbD (i + 1)
          else if i + 1 = s.regs.len.toNat then tappedParity s.regs.len.toNat s.regs.taps s.regs.lfsr
          else false

/-- 42_keystream.md R116, through KSBYTE (R117): with its checks passed KSBYTE completes; bit b of DOUT is the output bit of
the (b+1)-th of its 8 shifts, the first bit in bit 0; nothing but STATE and DOUT changes. -/
def Obligations.KsbytePacksEightShiftsLsbFirst : Prop :=
  ∀ s : State, s.Configured →
    ∃ t, exec .ksbyte s = .next t
      ∧ t = { s with regs := { s.regs with lfsr := t.regs.lfsr, dout := t.regs.dout } }
      ∧ t.regs.lfsr = shifts s.regs.len.toNat s.regs.taps 8 s.regs.lfsr
      ∧ ∀ b, b < 8 → t.regs.dout.getLsbD b = (shifts s.regs.len.toNat s.regs.taps b s.regs.lfsr).getLsbD 0

/-- 42_keystream.md R118: with its checks passed CIPHER completes; DOUT is the data byte XOR the byte KSBYTE would give,
STATE is what KSBYTE would leave, and nothing else changes. -/
def Obligations.CipherXorsTheKeystreamByte : Prop :=
  ∀ (s : State) (d : Byte), s.Configured →
    ∃ t u, exec (.cipher d) s = .next t ∧ exec .ksbyte s = .next u
      ∧ t = { s with regs := { s.regs with lfsr := u.regs.lfsr, dout := d ^^^ u.regs.dout } }
      ∧ ∀ b, b < 8 → t.regs.dout.getLsbD b =
          (d.getLsbD b).xor ((shifts s.regs.len.toNat s.regs.taps b s.regs.lfsr).getLsbD 0)

/-- 10_state.md R29: a stepping command whose checks fail does not run: it sets ERR_LEN or ERR_TAP, LEN being looked at
first, and changes nothing else. -/
def Obligations.FailedChecksSuppressTheCommand : Prop :=
  ∀ (s : State) (i : Instr), isStepping i = true →
    ((s.regs.len.toNat = 0 ∨ s.nmax.val < s.regs.len.toNat) →
      exec i s = .next { s with regs := { s.regs with status := s.regs.status ||| 0b0010#4 } })
    ∧ (1 ≤ s.regs.len.toNat → s.regs.len.toNat ≤ s.nmax.val →
        (∃ t, s.regs.len.toNat ≤ t ∧ s.regs.taps.getLsbD t = true) →
        exec i s = .next { s with regs := { s.regs with status := s.regs.status ||| 0b0100#4 } })

/-- The frame of all four commands (10_state.md R31, R32): no command touches LEN, TAPS, the build, the phase or the bus; a
command that succeeds leaves STATUS, and one that fails leaves STATE and DOUT. NOP leaves everything. -/
def Obligations.CommandsTouchOnlyStateDoutAndStatus : Prop :=
  ∀ (s t : State) (i : Instr), exec i s = .next t →
    t = { s with regs := { s.regs with lfsr := t.regs.lfsr, dout := t.regs.dout, status := t.regs.status } }
      ∧ (i = .nop → t = s)
      ∧ (s.Configured → t.regs.status = s.regs.status)
      ∧ (¬ s.Configured → t.regs.lfsr = s.regs.lfsr ∧ t.regs.dout = s.regs.dout)

/-- Corner cases of 41_lfsr.md R104: at n = 1 the next state is STATE[0] AND TAPS[0]; at n = NMAX no tap is out of range;
with no taps n shifts empty the register. -/
def Obligations.StepCornerCases : Prop :=
  (∀ s : State, s.Configured → s.regs.len = 1#6 →
      ∃ t, exec .step s = .next t ∧ t.regs.lfsr = (s.regs.lfsr &&& s.regs.taps &&& 1#32))
    ∧ (∀ s : State, s.Inv → s.regs.len.toNat = s.nmax.val → s.Configured)
    ∧ (∀ s : State, lenOk s.nmax s.regs = true → s.regs.taps = 0#32 →
      ∃ t, execAll (List.replicate s.regs.len.toNat .step) s = .next t ∧ t.regs.lfsr = 0#32)

/-! ### What the rules give for the bit stream -/

/-- Determinism, an inference of 41_lfsr.md that the spec marks as its own: a stepping command's result depends only on
STATE[n-1:0], TAPS[n-1:0] and n, and so does the result of any sequence of commands from equal DOUT. -/
def Obligations.ResultsDependOnlyOnTheLfsrBits : Prop :=
  ∀ s s' : State, s.Configured → s'.Configured → s.regs.len = s'.regs.len →
    lowBits s.regs.len.toNat s.regs.lfsr = lowBits s.regs.len.toNat s'.regs.lfsr →
    lowBits s.regs.len.toNat s.regs.taps = lowBits s.regs.len.toNat s'.regs.taps →
    (∀ i, isStepping i = true → ∃ t t', exec i s = .next t ∧ exec i s' = .next t'
        ∧ t.regs.lfsr = t'.regs.lfsr ∧ t.regs.dout = t'.regs.dout)
      ∧ (s.regs.dout = s'.regs.dout → ∀ cs : List Instr,
          ∃ t t', execAll cs s = .next t ∧ execAll cs s' = .next t' ∧ t.regs.dout = t'.regs.dout
            ∧ lowBits s.regs.len.toNat t.regs.lfsr = lowBits s.regs.len.toNat t'.regs.lfsr)

/-- Look-ahead, an inference of 41_lfsr.md that the spec marks as its own: the first n STEPs output the seed bits in index
order, and the first feedback bit comes out at the (n+1)-th. -/
def Obligations.FirstOutputsAreTheSeedBits : Prop :=
  ∀ s : State, s.Configured →
    (∀ k, k < s.regs.len.toNat →
      ∃ t, execAll (List.replicate (k + 1) .step) s = .next t
        ∧ t.regs.dout = if s.regs.lfsr.getLsbD k then 1#8 else 0#8)
    ∧ ∃ t, execAll (List.replicate (s.regs.len.toNat + 1) .step) s = .next t
        ∧ t.regs.dout = if tappedParity s.regs.len.toNat s.regs.taps s.regs.lfsr then 1#8 else 0#8

/-- An inference of 41_lfsr.md that the spec marks as its own: the all-zero state is a fixed point for every tap set, gives
zero output bits, and is no error. -/
def Obligations.ZeroStateIsAFixedPoint : Prop :=
  ∀ (s : State) (i : Instr), s.Configured → isStepping i = true →
    lowBits s.regs.len.toNat s.regs.lfsr = 0#32 →
    ∃ t, exec i s = .next t ∧ t.regs.lfsr = 0#32 ∧ t.regs.status = s.regs.status
      ∧ t.regs.dout = match i with
        | .nop => s.regs.dout
        | .step => 0#8
        | .ksbyte => 0#8
        | .cipher d => d

/-- Linearity, an inference of 41_lfsr.md that the spec marks as its own: with n and TAPS fixed the shift is linear, and the
outputs from a XOR of two seeds are the XOR of the outputs from each. -/
def Obligations.ShiftsAreLinear : Prop :=
  ∀ (s : State) (x y : Word) (k : Nat), s.Configured →
    ∃ tx ty txy, execAll (List.replicate (k + 1) .step) (s.withLfsr x) = .next tx
      ∧ execAll (List.replicate (k + 1) .step) (s.withLfsr y) = .next ty
      ∧ execAll (List.replicate (k + 1) .step) (s.withLfsr (x ^^^ y)) = .next txy
      ∧ txy.regs.lfsr = tx.regs.lfsr ^^^ ty.regs.lfsr
      ∧ txy.regs.dout = tx.regs.dout ^^^ ty.regs.dout

/-- Invertibility, an inference of 41_lfsr.md that the spec marks as its own: the shift is one-to-one on the 2^n states
exactly when index 0 is tapped; then the lost bit 0 can be recovered, and otherwise two states that differ only in bit 0 have
the same next state. -/
def Obligations.ShiftIsInvertibleIffTapZero : Prop :=
  ∀ s : State, s.Configured →
    ((∀ x y, lowBits s.regs.len.toNat x = x → lowBits s.regs.len.toNat y = y →
        stepLfsr s x = stepLfsr s y → x = y) ↔ s.regs.taps.getLsbD 0 = true)
    ∧ (s.regs.taps.getLsbD 0 = true → ∀ x z, stepLfsr s x = some z →
        x.getLsbD 0 = (z.getLsbD (s.regs.len.toNat - 1)).xor
          (tappedParity s.regs.len.toNat s.regs.taps (x &&& 0xFFFFFFFE#32)))
    ∧ (s.regs.taps.getLsbD 0 = false → ∀ x, stepLfsr s (x ^^^ 1#32) = stepLfsr s x)

/-- An inference of 42_keystream.md that the spec marks as its own: a KSBYTE leaves STATE as eight STEPs would, and its bit b
is the bit the (b+1)-th of them would give. -/
def Obligations.KsbyteAgreesWithEightSteps : Prop :=
  ∀ s : State, s.Configured →
    ∃ t u, exec .ksbyte s = .next t ∧ execAll (List.replicate 8 .step) s = .next u
      ∧ t.regs.lfsr = u.regs.lfsr
      ∧ ∀ b, b < 8 → ∃ v, execAll (List.replicate (b + 1) .step) s = .next v
          ∧ v.regs.dout.getLsbD 0 = t.regs.dout.getLsbD b

/-- An inference of 42_keystream.md that the spec marks as its own: with n >= 8 a KSBYTE returns the STATE[7:0] it starts
from. -/
def Obligations.KsbyteReturnsTheLowByte : Prop :=
  ∀ s : State, s.Configured → 8 ≤ s.regs.len.toNat →
    ∃ t, exec .ksbyte s = .next t ∧ t.regs.dout = s.regs.lfsr.extractLsb' 0 8

/-- "STEP, KSBYTE and CIPHER may be mixed freely", an inference of 42_keystream.md that the spec marks as its own: commands
may be mixed freely; each takes its own bits of the one stream of the engine the block stands for (log 16), in command order.
-/
def Obligations.MixedCommandsConsumeOneStream : Prop :=
  ∀ (s : State) (e : Engine) (cs : List Instr) (c : Instr),
    e.fits s.nmax = true → s.Holds e → isStepping c = true →
    ∃ t, execAll (cs ++ [c]) s = .next t
      ∧ t.Holds (e.after ((cs ++ [c]).map shiftCount).sum)
      ∧ t.regs.dout =
        let bits := (e.generateSequence ((cs ++ [c]).map shiftCount).sum).drop (cs.map shiftCount).sum
        match c with
        | .nop => s.regs.dout
        | .step => byteOfBits bits
        | .ksbyte => byteOfBits bits
        | .cipher d => d ^^^ byteOfBits bits

/-- `generate_sequence` on the block, an inference of 41_lfsr.md that the spec marks as its own (the engine: log 16): from
any running block, construct `new(T, s)` by three writes and issue k STEPs with a read of DOUT after each: the bits read are
the engine's `generate_sequence(k)`, and STATE[n-1:0] is the engine's state after k shifts. -/
def Obligations.StepsReadOutGenerateSequence : Prop :=
  ∀ (s : State) (e : Engine) (k : Nat), s.phase = .running → e.fits s.nmax = true →
    ∃ t, run (3 + 2 * k) (s.driven (configAccesses e ++ bitAccesses k)) = .next t
      ∧ t.inputs = s.inputs
      ∧ t.outputs.reverse = s.outputs.reverse ++ [.write .okay, .write .okay, .write .okay]
          ++ doutAnswers ((e.generateSequence k).map fun b => if b then 1#8 else 0#8)
      ∧ (e.generateSequence k).length = k
      ∧ lowBits e.state.length t.regs.lfsr = packBits (e.after k).state

/-- `cipher_file` on the block, an inference of 42_keystream.md that the spec marks as its own (the engine: log 16): from any
running block, construct `new(T, s)` and issue `CIPHER P[i]` for the payload in order with a read of DOUT after each: the
bytes read are those of `cipher_file`, after exactly 8 * L shifts. -/
def Obligations.CipherReadsOutCipherFile : Prop :=
  ∀ (s : State) (e : Engine) (payload : List Byte), s.phase = .running → e.fits s.nmax = true →
    ∃ t, run (3 + 2 * payload.length) (s.driven (configAccesses e ++ cipherAccesses payload)) = .next t
      ∧ t.inputs = s.inputs
      ∧ t.outputs.reverse = s.outputs.reverse ++ [.write .okay, .write .okay, .write .okay]
          ++ doutAnswers (e.cipherPayload payload)
      ∧ t.regs.lfsr = packBits (e.after (8 * payload.length)).state

/-- Round trip, an inference of 42_keystream.md that the spec marks as its own (the engine: log 16): ciphering what the block
gave for P, from the same seed, gives P back. -/
def Obligations.CipherRoundTrip : Prop :=
  ∀ (s : State) (e : Engine) (payload : List Byte), s.phase = .running → e.fits s.nmax = true →
    ∃ (code : List Byte) (t u : State),
      run (3 + 2 * payload.length) (s.driven (configAccesses e ++ cipherAccesses payload)) = .next t
      ∧ code.length = payload.length
      ∧ t.outputs.reverse = s.outputs.reverse ++ [.write .okay, .write .okay, .write .okay] ++ doutAnswers code
      ∧ run (3 + 2 * code.length) (t.driven (configAccesses e ++ cipherAccesses code)) = .next u
      ∧ u.outputs.reverse = t.outputs.reverse ++ [.write .okay, .write .okay, .write .okay] ++ doutAnswers payload

/-! ### Register accesses -/

/-- 20_memory.md R52: what a read of each register returns, with OKAY, and that it changes no register. -/
def Obligations.ReadsReturnTheRegisters : Prop :=
  ∀ (s : State) (a : BusAccess) (rest : List HostEvent) (r : Reg),
    s.phase = .running → s.inputs = .access a :: rest → a.kind = .read → isFourBytes a.width = true →
    (a.off.val = match r with
      | .id => 0x00 | .cmd => 0x04 | .status => 0x08 | .len => 0x0C | .taps => 0x10 | .state => 0x14 | .dout => 0x18) →
    ∃ v, step s = .next { s with inputs := rest, outputs := .read .okay v :: s.outputs }
      ∧ match r with
        | .id => v.extractLsb' 16 16 = 0x4C46#16 ∧ v.extractLsb' 8 8 = 0x01#8
            ∧ (v.extractLsb' 0 8).toNat = s.nmax.val
        | .cmd => v = 0#32
        | .status => v.toNat = s.regs.status.toNat
        | .len => v.toNat = s.regs.len.toNat
        | .taps => v = s.regs.taps
        | .state => v = s.regs.lfsr
        | .dout => v.toNat = s.regs.dout.toNat

/-- 40_config.md R86 to R89: the four writes that are no command, each answered OKAY and changing one register only. -/
def Obligations.WritesSetOneRegister : Prop :=
  ∀ (s : State) (a : BusAccess) (rest : List HostEvent),
    s.phase = .running → s.inputs = .access a :: rest → a.kind = .write → isFourBytes a.width = true →
    ∃ t, step s = .next t
      ∧ (a.off.val = 0x0C →
          t = { s with inputs := rest, outputs := .write .okay :: s.outputs,
                       regs := { s.regs with len := t.regs.len } }
          ∧ ∀ j, j < 6 → t.regs.len.getLsbD j = a.wdata.getLsbD j)
      ∧ (a.off.val = 0x10 →
          t = { s with inputs := rest, outputs := .write .okay :: s.outputs,
                       regs := { s.regs with taps := t.regs.taps } }
          ∧ ∀ j, t.regs.taps.getLsbD j = (decide (j < s.nmax.val) && a.wdata.getLsbD j))
      ∧ (a.off.val = 0x14 →
          t = { s with inputs := rest, outputs := .write .okay :: s.outputs,
                       regs := { s.regs with lfsr := t.regs.lfsr } }
          ∧ ∀ j, t.regs.lfsr.getLsbD j = (decide (j < s.nmax.val) && a.wdata.getLsbD j))
      ∧ (a.off.val = 0x08 →
          t = { s with inputs := rest, outputs := .write .okay :: s.outputs,
                       regs := { s.regs with status := t.regs.status } }
          ∧ ∀ j, t.regs.status.getLsbD j = (s.regs.status.getLsbD j && !a.wdata.getLsbD j))

/-- 20_memory.md R55: an illegal access sets ERR_ACC, answers ERROR (with rdata 0 for a read) and changes nothing else; a
read of CMD is legal and returns 0. -/
def Obligations.IllegalAccessesOnlySetErrAcc : Prop :=
  (∀ (s : State) (a : BusAccess) (rest : List HostEvent),
      s.phase = .running → s.inputs = .access a :: rest → AccessIllegal a →
      step s = .next { s with
        inputs := rest
        outputs := (if a.kind = .read then .read .error 0#32 else .write .error) :: s.outputs
        regs := { s.regs with status := s.regs.status ||| 0b1000#4 } })
    ∧ ∀ (s : State) (rest : List HostEvent),
      s.phase = .running → s.inputs = .access (rdAccess .cmd) :: rest →
      step s = .next { s with inputs := rest, outputs := .read .okay 0#32 :: s.outputs }

/-- 60_exceptions.md R134: at most one flag is set per access, the first of ERR_ACC, ERR_CMD, ERR_LEN, ERR_TAP that applies,
and an access that raises an error changes that flag and nothing else. -/
def Obligations.OneErrorPerAccessInOrder : Prop :=
  ∀ (s : State) (a : BusAccess) (rest : List HostEvent),
    s.phase = .running → s.inputs = .access a :: rest →
    ∃ t, step s = .next t
      ∧ (∀ k, errorOf s a = some k →
          t.regs = { s.regs with status := s.regs.status ||| BitVec.ofNat 4 (2 ^ errCode k) })
      ∧ (errorOf s a = none → ∀ j, j < 4 → t.regs.status.getLsbD j = true → s.regs.status.getLsbD j = true)

/-- 10_state.md R24, 60_exceptions.md R132: a flag is set only by the error it names and, once set, is cleared only by a
legal write of 1 to it or by reset. (Power loss leaves every register open.) -/
def Obligations.FlagsAreStickyAndSetOnlyByTheirError : Prop :=
  ∀ (s t : State) (e : HostEvent) (rest : List HostEvent) (j : Nat),
    s.inputs = e :: rest → step s = .next t → e ≠ .powerLost →
    (s.regs.status.getLsbD j = true → t.regs.status.getLsbD j = false →
      (∃ a, e = .access a ∧ a.kind = .write ∧ a.off.val = 0x08 ∧ ¬ AccessIllegal a ∧ a.wdata.getLsbD j = true)
        ∨ e = .assertReset ∨ ∃ w, e = .resetDuringCommand w)
    ∧ (s.regs.status.getLsbD j = false → t.regs.status.getLsbD j = true →
      ∃ a k, e = .access a ∧ errorOf s a = some k ∧ errCode k = j)

/-- 10_state.md R28, R31: who writes what. LEN, TAPS: host writes to their offsets and reset. STATE: these and successful
stepping commands. DOUT: successful stepping commands and reset. (Power loss leaves every register open.) -/
def Obligations.RegistersHaveOnlyTheirWriters : Prop :=
  ∀ (s t : State) (e : HostEvent) (rest : List HostEvent),
    s.inputs = e :: rest → step s = .next t → e ≠ .powerLost → e ≠ .assertReset →
    (∀ w, e ≠ .resetDuringCommand w) →
    (t.regs.len ≠ s.regs.len → ∃ a, e = .access a ∧ a.kind = .write ∧ ¬ AccessIllegal a ∧ a.off.val = 0x0C)
    ∧ (t.regs.taps ≠ s.regs.taps → ∃ a, e = .access a ∧ a.kind = .write ∧ ¬ AccessIllegal a ∧ a.off.val = 0x10)
    ∧ (t.regs.lfsr ≠ s.regs.lfsr → ∃ a, e = .access a ∧ a.kind = .write ∧ ¬ AccessIllegal a
        ∧ (a.off.val = 0x14 ∨ (a.off.val = 0x04 ∧ s.Configured
            ∧ ∃ i, decode a.wdata = .ok i ∧ isStepping i = true)))
    ∧ (t.regs.dout ≠ s.regs.dout → ∃ a, e = .access a ∧ a.kind = .write ∧ ¬ AccessIllegal a
        ∧ a.off.val = 0x04 ∧ s.Configured ∧ ∃ i, decode a.wdata = .ok i ∧ isStepping i = true)

/-- 20_memory.md R57: reading twice gives the same value twice; writing LEN, TAPS, STATE or STATUS twice leaves what writing
once leaves; writing STEP to CMD twice makes two shifts. -/
def Obligations.OnlyCommandWritesAccumulate : Prop :=
  ∀ s : State, s.phase = .running →
    (∀ r : Reg, ∃ t v, run 2 (s.driven [rdAccess r, rdAccess r]) = .next t
      ∧ t.outputs = .read .okay v :: .read .okay v :: s.outputs ∧ t.regs = s.regs)
    ∧ (∀ (r : Reg) (v : Word), r = .len ∨ r = .taps ∨ r = .state ∨ r = .status →
      ∃ t u, run 1 (s.driven [wrAccess r v]) = .next t ∧ run 2 (s.driven [wrAccess r v, wrAccess r v]) = .next u
        ∧ u.regs = t.regs)
    ∧ (s.Configured → ∃ t, run 2 (s.driven [commandAccess .step, commandAccess .step]) = .next t
      ∧ t.regs.lfsr = shifts s.regs.len.toNat s.regs.taps 2 s.regs.lfsr)

/-- 20_memory.md R60 (1): a read after a write to the same register returns the written value, with the changes that register
makes: LEN keeps 6 bits, TAPS and STATE keep NMAX bits, STATUS has the written ones cleared, CMD reads 0. -/
def Obligations.ReadAfterWriteReturnsWhatWasKept : Prop :=
  ∀ (s : State) (v : Word), s.phase = .running →
    (∃ t, run 2 (s.driven [wrAccess .len v, rdAccess .len]) = .next t
      ∧ t.outputs = .read .okay (v &&& 0x3F#32) :: .write .okay :: s.outputs)
    ∧ (∃ t, run 2 (s.driven [wrAccess .taps v, rdAccess .taps]) = .next t
      ∧ t.outputs = .read .okay (lowBits s.nmax.val v) :: .write .okay :: s.outputs)
    ∧ (∃ t, run 2 (s.driven [wrAccess .state v, rdAccess .state]) = .next t
      ∧ t.outputs = .read .okay (lowBits s.nmax.val v) :: .write .okay :: s.outputs)
    ∧ (∃ t, run 2 (s.driven [wrAccess .status v, rdAccess .status]) = .next t
      ∧ t.outputs = .read .okay (s.regs.status.setWidth 32 &&& ~~~ v) :: .write .okay :: s.outputs)
    ∧ (∃ t, run 2 (s.driven [wrAccess .cmd v, rdAccess .cmd]) = .next t
      ∧ t.outputs = .read .okay 0#32 :: .write .okay :: s.outputs)

/-- Construction in any order, an inference of 40_config.md that the spec marks as its own: the three writes, in any order,
leave the same state: the packed seed, the tap mask and the length, each cut to its register, with no validation and no
error. -/
def Obligations.ConstructionInAnyOrder : Prop :=
  ∀ (s : State) (e : Engine) (accesses : List BusAccess), s.phase = .running →
    accesses.Perm (configAccesses e) →
    run 3 (s.driven accesses) = .next { s with
      outputs := [.write .okay, .write .okay, .write .okay] ++ s.outputs
      regs := { s.regs with
        taps := lowBits s.nmax.val (tapMask e.taps)
        lfsr := lowBits s.nmax.val (packBits e.state)
        len := BitVec.ofNat 6 e.state.length } }

/-- An inference of 40_config.md that the spec marks as its own: bits from n up are 0 after a shift, so they join as 0 when
LEN grows without a write of STATE, and those from the new n up are cleared by the next shift when it shrinks. -/
def Obligations.LengthChangeTakesTheBitsAsTheyStand : Prop :=
  ∀ (s : State) (v : Word), s.phase = .running → s.Configured →
    ∃ t u, exec .step s = .next t
      ∧ run 1 (t.driven [wrAccess .len v]) = .next u
      ∧ u.regs.lfsr = t.regs.lfsr
      ∧ (∀ i, s.regs.len.toNat ≤ i → u.regs.lfsr.getLsbD i = false)
      ∧ (u.Configured → ∃ x, exec .step u = .next x ∧
          ∀ i, i < 32 → x.regs.lfsr.getLsbD i =
            if i + 1 < u.regs.len.toNat then decide (i + 1 < s.regs.len.toNat) && t.regs.lfsr.getLsbD (i + 1)
            else if i + 1 = u.regs.len.toNat then tappedParity u.regs.len.toNat u.regs.taps t.regs.lfsr
            else false)

/-- 20_memory.md R66: a running block answers every access once, in the same step (log 12); the answer is OKAY exactly when
the access is legal, also when a command raised an error (R53), and the block goes on running. -/
def Obligations.EveryAccessIsAnsweredOnce : Prop :=
  ∀ (s : State) (a : BusAccess) (rest : List HostEvent),
    s.phase = .running → s.inputs = .access a :: rest →
    ∃ t r, step s = .next t ∧ t.outputs = r :: s.outputs ∧ t.inputs = rest ∧ t.phase = .running
      ∧ (a.kind = .write → r = .write (if AccessIllegal a then .error else .okay))
      ∧ (a.kind = .read → ∃ v, r = .read (if AccessIllegal a then .error else .okay) v)

/-- 60_exceptions.md R135: a flag that is set blocks nothing. With other flags, the step gives the same registers but for
STATUS, and the same answers but for a read of STATUS. -/
def Obligations.FlagsBlockNothing : Prop :=
  ∀ (s t : State) (flags : BitVec 4), step s = .next t →
    ∃ t', step (s.setRegs { s.regs with status := flags }) = .next t'
      ∧ { t'.regs with status := t.regs.status } = t.regs
      ∧ t'.phase = t.phase ∧ t'.inputs = t.inputs ∧ t'.draws = t.draws ∧ t'.nmax = t.nmax
      ∧ ((∀ a rest, s.inputs = .access a :: rest → a.kind = .write ∨ a.off.val ≠ 0x08) →
          t'.outputs = t.outputs)

/-- An inference of 60_exceptions.md that the spec marks as its own: a command that failed leaves no trace but its flag:
after the flags are cleared and LEN and TAPS corrected, reissuing it gives what it would have given had it not been issued
before. -/
def Obligations.FailedCommandCanBeReissued : Prop :=
  ∀ (s u : State) (i : Instr) (n m : Word), s.phase = .running → ¬ s.Configured → exec i s = .next u →
    run 4 (u.driven [wrAccess .status 0x0000000F#32, wrAccess .len n, wrAccess .taps m, commandAccess i])
      = run 4 (s.driven [wrAccess .status 0x0000000F#32, wrAccess .len n, wrAccess .taps m, commandAccess i])

/-- 20_memory.md R54: lane j of a data word is bits [8j+7:8j] at byte address BASE + off + j, whatever BASE is (log 3). -/
def Obligations.ByteLanesAreLittleEndian : Prop :=
  (∀ (w : Word) (j b : Nat), b < 8 → (byteLane w j).getLsbD b = w.getLsbD (8 * j + b))
    ∧ ∀ (r : Reg) (j : Nat), j < 4 →
      laneAddress (regOffset r) j = Config.base + (regOffset r).val + j
      ∧ (windowOffset (laneAddress (regOffset r) j)).map Fin.val = some ((regOffset r).val + j)

/-! ### Reset, and the machine as a whole -/

/-- 70_reset_and_hazards.md R150: the reset values, from every state, while reset is asserted and after it is released (the
two events: log 10); ID does not change, and every stepping command then raises ERR_LEN. -/
def Obligations.ResetGivesTheResetValues : Prop :=
  ∀ (s : State) (rest : List HostEvent), s.inputs = .assertReset :: .releaseReset :: rest →
    ∃ t u, step s = .next t ∧ step t = .next u
      ∧ t.regs = { lfsr := 0#32, taps := 0#32, len := 0#6, dout := 0#8, status := 0#4 }
      ∧ u.regs = t.regs
      ∧ readReg .id t = readReg .id s ∧ readReg .id u = readReg .id s
      ∧ t.outputs = s.outputs ∧ u.outputs = s.outputs
      ∧ ∀ i, isStepping i = true → exec i u = .next { u with regs := { u.regs with status := 0b0010#4 } }

/-- 70_reset_and_hazards.md R150 for the state after reset of each build, and 00_scope.md R6 for the default build (log 2);
the hardwired zeros hold there (log 9). -/
def Obligations.ResetStateIsAsTheTableSays : Prop :=
  State.reset = State.resetOf NMax.default ∧ NMax.default.val = 32
    ∧ ∀ n : NMax, (State.resetOf n).regs = { lfsr := 0#32, taps := 0#32, len := 0#6, dout := 0#8, status := 0#4 }
      ∧ (State.resetOf n).nmax = n ∧ (State.resetOf n).Inv

/-- 70_reset_and_hazards.md R153: a reset during a stalled CMD write abandons the command; the block is in reset with the
reset values, and the host gets some response or none, which is left open (log 5). -/
def Obligations.ResetAbandonsAStalledCommand : Prop :=
  ∀ (s : State) (w : Word) (rest : List HostEvent),
    s.phase = .running → s.inputs = .resetDuringCommand w :: rest →
    ∃ t, step s = .next t ∧ t.phase = .inReset ∧ t.inputs = rest ∧ t.nmax = s.nmax
      ∧ t.regs = { lfsr := 0#32, taps := 0#32, len := 0#6, dout := 0#8, status := 0#4 }
      ∧ (t.outputs = s.outputs ∨ ∃ r, t.outputs = .write r :: s.outputs)

/-- 70_reset_and_hazards.md R151, R152: an access while reset is asserted, or to a block not reset since power came, is
refused (log 4); and an unreset block stays unreset until reset is asserted (logs 6, 20). -/
def Obligations.AccessesOutsideRunningAreRefused : Prop :=
  (∀ (s : State) (a : BusAccess) (rest : List HostEvent), s.inputs = .access a :: rest →
      (s.phase = .inReset → step s = .refused .accessDuringReset)
      ∧ (s.phase = .unreset → step s = .refused .accessToUnresetBlock))
    ∧ (∀ (s : State) (rest : List HostEvent), s.inputs = .powerLost :: rest →
      ∃ t, step s = .next t ∧ t.phase = .unreset)
    ∧ ∀ (s t : State) (e : HostEvent) (rest : List HostEvent), s.inputs = e :: rest → s.phase = .unreset →
      e ≠ .assertReset → step s = .next t → t.phase = .unreset

/-- 20_memory.md R66, 60_exceptions.md R146: with nothing coming from outside the block stays as it is (log 11). -/
def Obligations.IdleBlockStaysAsItIs : Prop :=
  ∀ s : State, s.inputs = [] → ∀ k, run k s = .next s

/-- The invariant of the machine is kept by every step: the hardwired bits of STATE and TAPS are 0 (10_state.md R26, R27; log
9), and a block held in reset has the reset values (70_reset_and_hazards.md R150). -/
def Obligations.EveryStepKeepsTheInvariant : Prop :=
  ∀ s t : State, s.Inv → step s = .next t → t.Inv

/-- 10_state.md R22: ID is constant; no step changes the build. -/
def Obligations.IdIsConstant : Prop :=
  ∀ s t : State, step s = .next t →
    t.nmax = s.nmax ∧ readReg .id t = readReg .id s
      ∧ (readReg .id s).toNat = 0x4C460100 + s.nmax.val

/-- 20_memory.md R66 for whole runs: the block never stops for a host that makes no access while reset is asserted or before
the first reset (the duties of 70_reset_and_hazards.md R151, R152; logs 6, 10, 12, 20), and it takes one event per step, in
order. -/
def Obligations.WellDrivenRunsNeverStop : Prop :=
  ∀ (s : State) (k : Nat), wellDriven s.phase s.inputs = true →
    ∃ t, run k s = .next t ∧ t.inputs = s.inputs.drop k ∧ t.nmax = s.nmax
      ∧ wellDriven t.phase t.inputs = true

/-! ### The host assembly -/

/-- The correspondence with the constructor, an inference of 40_config.md that the spec marks as its own, for `NEW` of
30_encoding.md R78 (log 15): for a seed and a tap set that fit, `NEW` assembles to accesses after which a running block holds
that engine and passes the checks of a stepping command. -/
def Obligations.NewConfiguresTheEngine : Prop :=
  ∀ (s : State) (e : Engine), s.phase = .running → e.fits s.nmax = true →
    ∃ accesses t,
      assemble s.nmax [.new (e.taps.map Int.ofNat) (e.state.map fun b => if b then 1 else 0)] = some accesses
      ∧ run accesses.length (s.driven accesses) = .next t
      ∧ t.Holds e ∧ t.Configured
      ∧ t.regs.dout = s.regs.dout ∧ t.regs.status = s.regs.status

/-- 30_encoding.md R77, R78 (log 15): the assembler refuses a program exactly when it holds an immediate outside 0 to 255, a
tap index below 0 or at or above NMAX, or a seed that is empty, longer than NMAX or not made of 0 and 1. -/
def Obligations.AssemblerRefusesMalformedStatements : Prop :=
  ∀ (nmax : NMax) (program : List HostStmt),
    assemble nmax program = none ↔
      ∃ st ∈ program,
        (∃ d, (st = .cipher d ∨ st = .xorByte d) ∧ (d < 0 ∨ 255 < d))
        ∨ (∃ taps bits, (st = .setTaps taps ∨ st = .new taps bits) ∧ ∃ t ∈ taps, t < 0 ∨ (nmax.val : Int) ≤ t)
        ∨ (∃ taps bits, (st = .seed bits ∨ st = .new taps bits) ∧
            (bits = [] ∨ nmax.val < bits.length ∨ ∃ b ∈ bits, b ≠ 0 ∧ b ≠ 1))
end

