-- ==== Sys2Proof/Laws/Bits.lean ====
section
/-! SUPPORT. The bit operations bit by bit, parity, the shift and the packer. -/

namespace Sys2Proof.Machine

/-! ### Slices -/

theorem getLsbD_lowMask (n i : Nat) : (lowMask n).getLsbD i = (decide (i < n) && decide (i < 32)) := by
  unfold lowMask
  rw [BitVec.getLsbD_ofNat, Nat.testBit_two_pow_sub_one, Bool.and_comm]

theorem getLsbD_lowBits (n i : Nat) (w : Word) :
    (lowBits n w).getLsbD i = (w.getLsbD i && decide (i < n)) := by
  unfold lowBits
  rw [BitVec.getLsbD_and, getLsbD_lowMask]
  by_cases h : i < 32
  · simp [h]
  · simp [BitVec.getLsbD_of_ge w i (by omega)]

theorem lowBits_lowBits (m n : Nat) (w : Word) : lowBits m (lowBits n w) = lowBits (min m n) w := by
  apply BitVec.eq_of_getLsbD_eq
  intro i _
  simp only [getLsbD_lowBits, Nat.lt_min, Bool.decide_and]
  cases w.getLsbD i <;> cases decide (i < m) <;> cases decide (i < n) <;> rfl

theorem lowBits_and (n : Nat) (v w : Word) : lowBits n (v &&& w) = lowBits n v &&& lowBits n w := by
  apply BitVec.eq_of_getLsbD_eq
  intro i _
  simp only [getLsbD_lowBits, BitVec.getLsbD_and]
  cases decide (i < n) <;> simp

theorem lowBits_xor (n : Nat) (v w : Word) : lowBits n (v ^^^ w) = lowBits n v ^^^ lowBits n w := by
  apply BitVec.eq_of_getLsbD_eq
  intro i _
  simp only [getLsbD_lowBits, BitVec.getLsbD_xor]
  cases decide (i < n) <;> simp

theorem lowBits_zero_word (n : Nat) : lowBits n 0#32 = 0#32 := by simp [lowBits]

/-- A slice equals the word exactly when no bit stands above it. -/
theorem lowBits_eq_self_iff (n : Nat) (w : Word) :
    lowBits n w = w ↔ ∀ i, n ≤ i → w.getLsbD i = false := by
  constructor
  · intro h i hi
    rw [← h, getLsbD_lowBits]
    simp [show ¬ i < n by omega]
  · intro h
    apply BitVec.eq_of_getLsbD_eq
    intro i _
    rw [getLsbD_lowBits]
    by_cases hi : i < n
    · simp [hi]
    · simp [hi, h i (by omega)]

/-- Two words agree below n exactly when their slices are equal. -/
theorem lowBits_eq_iff (n : Nat) (v w : Word) :
    lowBits n v = lowBits n w ↔ ∀ i, i < n → v.getLsbD i = w.getLsbD i := by
  constructor
  · intro h i hi
    have := congrArg (fun x : Word => x.getLsbD i) h
    simpa [getLsbD_lowBits, hi] using this
  · intro h
    apply BitVec.eq_of_getLsbD_eq
    intro i _
    rw [getLsbD_lowBits, getLsbD_lowBits]
    by_cases hi : i < n
    · simp [hi, h i hi]
    · simp [hi]

/-- The check of the taps, bit by bit: no tap at an index of n or more (10_state.md R29). -/
theorem ushiftRight_eq_zero_iff (n : Nat) (w : Word) :
    w >>> n = 0#32 ↔ ∀ i, n ≤ i → w.getLsbD i = false := by
  constructor
  · intro h i hi
    have := congrArg (fun x : Word => x.getLsbD (i - n)) h
    simpa [BitVec.getLsbD_ushiftRight, show n + (i - n) = i by omega] using this
  · intro h
    apply BitVec.eq_of_getLsbD_eq
    intro i _
    simp [BitVec.getLsbD_ushiftRight, h (n + i) (by omega)]

/-! ### Parity -/

theorem parityBelow_congr (k : Nat) (v w : Word) (h : ∀ i, i < k → v.getLsbD i = w.getLsbD i) :
    parityBelow k v = parityBelow k w := by
  induction k with
  | zero => rfl
  | succ k ih =>
    simp only [parityBelow]
    rw [ih fun i hi => h i (by omega), h k (by omega)]

theorem parityBelow_xor (k : Nat) (v w : Word) :
    parityBelow k (v ^^^ w) = (parityBelow k v).xor (parityBelow k w) := by
  induction k with
  | zero => rfl
  | succ k ih =>
    simp only [parityBelow, ih, BitVec.getLsbD_xor]
    cases parityBelow k v <;> cases parityBelow k w <;> cases v.getLsbD k <;> cases w.getLsbD k <;> rfl

theorem parity_xor (v w : Word) : parity (v ^^^ w) = (parity v).xor (parity w) := parityBelow_xor 32 v w

theorem parity_zero : parity 0#32 = false := by decide

/-- Parity stops at the last bit that can be 1. -/
theorem parityBelow_of_high_zero (k n : Nat) (w : Word) (hn : n ≤ k)
    (h : ∀ i, n ≤ i → w.getLsbD i = false) : parityBelow k w = parityBelow n w := by
  induction k with
  | zero => rw [show n = 0 by omega]
  | succ k ih =>
    by_cases hk : n = k + 1
    · rw [hk]
    · simp only [parityBelow]
      rw [ih (by omega), h k (by omega), Bool.xor_false]

/-! ### One shift -/

theorem getLsbD_bitWord (b : Bool) (i : Nat) : (bitWord b).getLsbD i = (decide (i = 0) && b) := by
  cases b <;> cases i <;> simp [bitWord]

theorem getLsbD_bitByte (b : Bool) (i : Nat) : (bitByte b).getLsbD i = (decide (i = 0) && b) := by
  cases b <;> cases i <;> simp [bitByte]

/-- The shift, bit by bit: bit i takes bit i+1, bit n-1 takes the feedback, and the rest is 0 (41_lfsr.md R101). -/
theorem getLsbD_shiftWord (n : Nat) (taps lfsr : Word) (h1 : 1 ≤ n) (h32 : n ≤ 32) (i : Nat) :
    (shiftWord n taps lfsr).getLsbD i =
      if i + 1 < n then lfsr.getLsbD (i + 1)
      else if i + 1 = n then feedback n taps lfsr else false := by
  unfold shiftWord
  rw [BitVec.getLsbD_or, BitVec.getLsbD_ushiftRight, BitVec.getLsbD_shiftLeft, getLsbD_lowBits,
    getLsbD_bitWord, Nat.add_comm 1 i]
  by_cases ha : i + 1 < n
  · simp [ha, show i < n - 1 by omega]
  · by_cases hb : i + 1 = n
    · obtain rfl : n = i + 1 := hb.symm
      simp [show i < 32 by omega]
    · simp [ha, hb, show ¬ i - (n - 1) = 0 by omega]

/-- A shift leaves nothing at n and above (41_lfsr.md R101). -/
theorem lowBits_shiftWord (n : Nat) (taps lfsr : Word) (h1 : 1 ≤ n) (h32 : n ≤ 32) :
    lowBits n (shiftWord n taps lfsr) = shiftWord n taps lfsr := by
  rw [lowBits_eq_self_iff]
  intro i hi
  rw [getLsbD_shiftWord n taps lfsr h1 h32]
  simp [show ¬ i + 1 < n by omega, show ¬ i + 1 = n by omega]

theorem feedback_lowBits (n : Nat) (taps lfsr : Word) :
    feedback n taps (lowBits n lfsr) = feedback n taps lfsr := by
  simp [feedback, lowBits_lowBits]

/-- A shift reads only STATE[n-1:0] (41_lfsr.md R101). -/
theorem shiftWord_lowBits (n : Nat) (taps lfsr : Word) :
    shiftWord n taps (lowBits n lfsr) = shiftWord n taps lfsr := by
  simp [shiftWord, feedback_lowBits, lowBits_lowBits]

theorem outBit_lowBits (n : Nat) (lfsr : Word) (h1 : 1 ≤ n) : outBit (lowBits n lfsr) = outBit lfsr := by
  rw [outBit, getLsbD_lowBits, outBit]
  simp [show 0 < n by omega]

/-! ### Many shifts -/

theorem shifts_add (n : Nat) (taps : Word) (j k : Nat) (lfsr : Word) :
    shifts n taps (j + k) lfsr = shifts n taps k (shifts n taps j lfsr) := by
  induction j generalizing lfsr with
  | zero => simp [shifts]
  | succ j ih => rw [Nat.succ_add]; simp only [shifts]; exact ih _

theorem shifts_succ_last (n : Nat) (taps : Word) (k : Nat) (lfsr : Word) :
    shifts n taps (k + 1) lfsr = shiftWord n taps (shifts n taps k lfsr) := by
  rw [shifts_add]; rfl

/-- Any number of shifts keeps the bits at n and above 0. -/
theorem lowBits_shifts (n : Nat) (taps : Word) (h1 : 1 ≤ n) (h32 : n ≤ 32) (k : Nat) (lfsr : Word)
    (h : lowBits n lfsr = lfsr) : lowBits n (shifts n taps k lfsr) = shifts n taps k lfsr := by
  induction k generalizing lfsr with
  | zero => exact h
  | succ k ih => exact ih _ (lowBits_shiftWord n taps lfsr h1 h32)

/-! ### The packer -/

theorem getLsbD_setByteBit (acc : Byte) (b : Nat) (v : Bool) (i : Nat) :
    (setByteBit acc b v).getLsbD i =
      if i = b then decide (b < 8) && v else acc.getLsbD i := by
  unfold setByteBit
  rw [BitVec.getLsbD_or, BitVec.getLsbD_and, BitVec.getLsbD_not, BitVec.getLsbD_shiftLeft,
    BitVec.getLsbD_shiftLeft, getLsbD_bitByte]
  by_cases hi : i < 8
  · rcases Nat.lt_trichotomy i b with h | h | h
    · simp [hi, h, show i ≠ b by omega]
    · subst h; simp [hi]
    · simp [hi, show ¬ i < b by omega, show i ≠ b by omega, show ¬ i - b = 0 by omega,
        BitVec.getLsbD_one]
  · simp [hi, BitVec.getLsbD_of_ge acc i (by omega)]
    intro hb; omega

/-- The packer's STATE after b rounds is STATE after b shifts (42_keystream.md R117). -/
theorem packLoop_state (n : Nat) (taps lfsr : Word) (b : Nat) :
    (packLoop n taps lfsr b).2 = shifts n taps b lfsr := by
  induction b with
  | zero => rfl
  | succ b ih => rw [shifts_succ_last, ← ih]; rfl

/-- Bit i of the byte after b rounds is the output bit of shift i+1, for i < b (42_keystream.md R116). -/
theorem getLsbD_packLoop (n : Nat) (taps lfsr : Word) (b i : Nat) (hb : b ≤ 8) :
    (packLoop n taps lfsr b).1.getLsbD i = (decide (i < b) && outBit (shifts n taps i lfsr)) := by
  induction b with
  | zero => simp [packLoop]
  | succ b ih =>
    simp only [packLoop, getLsbD_setByteBit, packLoop_state]
    by_cases h : i = b
    · subst h; simp [show i < 8 by omega]
    · rw [if_neg h, ih (by omega)]
      by_cases h' : i < b
      · simp [h', show i < b + 1 by omega]
      · simp [h', show ¬ i < b + 1 by omega]

theorem getLsbD_keystreamByte (n : Nat) (taps lfsr : Word) (i : Nat) :
    (keystreamByte n taps lfsr).getLsbD i = (decide (i < 8) && outBit (shifts n taps i lfsr)) :=
  getLsbD_packLoop n taps lfsr 8 i (by omega)

theorem keystreamNext_eq_shifts (n : Nat) (taps lfsr : Word) :
    keystreamNext n taps lfsr = shifts n taps 8 lfsr := packLoop_state n taps lfsr 8

/-! ### Masks of taps and seeds -/

theorem getLsbD_tapMask (taps : List Nat) (i : Nat) :
    (tapMask taps).getLsbD i = (decide (i < 32) && decide (i ∈ taps)) := by
  induction taps with
  | nil => simp [tapMask]
  | cons t ts ih =>
    rw [tapMask, BitVec.getLsbD_or, ih, BitVec.getLsbD_shiftLeft, BitVec.getLsbD_one]
    by_cases hi : i < 32
    · rcases Nat.lt_trichotomy i t with h | h | h
      · simp [hi, h, show i ≠ t by omega]
      · subst h; simp [hi]
      · simp [hi, show i ≠ t by omega, show ¬ i < t by omega, show ¬ i - t = 0 by omega]
    · simp [hi]

theorem getLsbD_packBits (bits : List Bool) (i : Nat) :
    (packBits bits).getLsbD i = (decide (i < 32) && bits.getD i false) := by
  induction bits generalizing i with
  | nil => simp [packBits]
  | cons b bs ih =>
    rw [packBits, BitVec.getLsbD_or, BitVec.getLsbD_shiftLeft, ih, getLsbD_bitWord]
    cases i with
    | zero => simp
    | succ i =>
      by_cases hi : i + 1 < 32
      · simp [hi, show i < 32 by omega]
      · simp [hi]

end Sys2Proof.Machine
end

