-- ==== Sys2Proof/Laws/State.lean ====
section
/-! SUPPORT. What each update of the state does to each field: no later proof unfolds one. -/

namespace Sys2Proof.Machine

/-! ### setRegs -/

@[simp] theorem State.setRegs_nmax (s : State) (r : Regs) : (s.setRegs r).nmax = s.nmax := rfl

@[simp] theorem State.setRegs_regs (s : State) (r : Regs) : (s.setRegs r).regs = r := rfl

@[simp] theorem State.setRegs_phase (s : State) (r : Regs) : (s.setRegs r).phase = s.phase := rfl

@[simp] theorem State.setRegs_inputs (s : State) (r : Regs) : (s.setRegs r).inputs = s.inputs := rfl

@[simp] theorem State.setRegs_outputs (s : State) (r : Regs) : (s.setRegs r).outputs = s.outputs := rfl

@[simp] theorem State.setRegs_draws (s : State) (r : Regs) : (s.setRegs r).draws = s.draws := rfl

/-! ### respond -/

@[simp] theorem State.respond_nmax (s : State) (r : BusResponse) : (s.respond r).nmax = s.nmax := rfl

@[simp] theorem State.respond_regs (s : State) (r : BusResponse) : (s.respond r).regs = s.regs := rfl

@[simp] theorem State.respond_phase (s : State) (r : BusResponse) : (s.respond r).phase = s.phase := rfl

@[simp] theorem State.respond_inputs (s : State) (r : BusResponse) : (s.respond r).inputs = s.inputs := rfl

@[simp] theorem State.respond_outputs (s : State) (r : BusResponse) : (s.respond r).outputs = r :: s.outputs := rfl

@[simp] theorem State.respond_draws (s : State) (r : BusResponse) : (s.respond r).draws = s.draws := rfl

/-! ### withInputs -/

@[simp] theorem State.withInputs_nmax (s : State) (es : List HostEvent) : (s.withInputs es).nmax = s.nmax := rfl

@[simp] theorem State.withInputs_regs (s : State) (es : List HostEvent) : (s.withInputs es).regs = s.regs := rfl

@[simp] theorem State.withInputs_phase (s : State) (es : List HostEvent) : (s.withInputs es).phase = s.phase := rfl

@[simp] theorem State.withInputs_inputs (s : State) (es : List HostEvent) : (s.withInputs es).inputs = es := rfl

@[simp] theorem State.withInputs_outputs (s : State) (es : List HostEvent) : (s.withInputs es).outputs = s.outputs := rfl

@[simp] theorem State.withInputs_draws (s : State) (es : List HostEvent) : (s.withInputs es).draws = s.draws := rfl

/-! ### assertReset -/

@[simp] theorem State.assertReset_nmax (s : State) : (s.assertReset).nmax = s.nmax := rfl

@[simp] theorem State.assertReset_regs (s : State) : (s.assertReset).regs = Regs.reset := rfl

@[simp] theorem State.assertReset_phase (s : State) : (s.assertReset).phase = .inReset := rfl

@[simp] theorem State.assertReset_inputs (s : State) : (s.assertReset).inputs = s.inputs := rfl

@[simp] theorem State.assertReset_outputs (s : State) : (s.assertReset).outputs = s.outputs := rfl

@[simp] theorem State.assertReset_draws (s : State) : (s.assertReset).draws = s.draws := rfl

/-! ### losePower -/

@[simp] theorem State.losePower_nmax (s : State) : (s.losePower).nmax = s.nmax := rfl

@[simp] theorem State.losePower_regs (s : State) : (s.losePower).regs = unresetRegs s.nmax s.draws := rfl

@[simp] theorem State.losePower_phase (s : State) : (s.losePower).phase = .unreset := rfl

@[simp] theorem State.losePower_inputs (s : State) : (s.losePower).inputs = s.inputs := rfl

@[simp] theorem State.losePower_outputs (s : State) : (s.losePower).outputs = s.outputs := rfl

@[simp] theorem State.losePower_draws (s : State) : (s.losePower).draws = s.draws + 1 := rfl

/-! ### abandonCommand -/

@[simp] theorem State.abandonCommand_nmax (s : State) : (s.abandonCommand).nmax = s.nmax := rfl

@[simp] theorem State.abandonCommand_regs (s : State) : (s.abandonCommand).regs = Regs.reset := rfl

@[simp] theorem State.abandonCommand_phase (s : State) : (s.abandonCommand).phase = .inReset := rfl

@[simp] theorem State.abandonCommand_inputs (s : State) : (s.abandonCommand).inputs = s.inputs := rfl

@[simp] theorem State.abandonCommand_outputs (s : State) : (s.abandonCommand).outputs = (Config.abandonedResponse s.draws).toList.map .write ++ s.outputs := rfl

@[simp] theorem State.abandonCommand_draws (s : State) : (s.abandonCommand).draws = s.draws + 1 := rfl

/-! ### issueCommand -/

@[simp] theorem State.issueCommand_nmax (s : State) (w : Word) : (s.issueCommand w).nmax = s.nmax := rfl

@[simp] theorem State.issueCommand_regs (s : State) (w : Word) : (s.issueCommand w).regs = s.regs := rfl

@[simp] theorem State.issueCommand_phase (s : State) (w : Word) : (s.issueCommand w).phase = .running := rfl

@[simp] theorem State.issueCommand_inputs (s : State) (w : Word) : (s.issueCommand w).inputs = .access (wrAccess .cmd w) :: s.inputs := rfl

@[simp] theorem State.issueCommand_outputs (s : State) (w : Word) : (s.issueCommand w).outputs = s.outputs := rfl

@[simp] theorem State.issueCommand_draws (s : State) (w : Word) : (s.issueCommand w).draws = s.draws := rfl

/-! ### raiseError -/

@[simp] theorem raiseError_nmax (k : ErrKind) (s : State) : (raiseError k s).nmax = s.nmax := rfl

@[simp] theorem raiseError_phase (k : ErrKind) (s : State) : (raiseError k s).phase = s.phase := rfl

@[simp] theorem raiseError_inputs (k : ErrKind) (s : State) : (raiseError k s).inputs = s.inputs := rfl

@[simp] theorem raiseError_outputs (k : ErrKind) (s : State) : (raiseError k s).outputs = s.outputs := rfl

@[simp] theorem raiseError_draws (k : ErrKind) (s : State) : (raiseError k s).draws = s.draws := rfl

@[simp] theorem raiseError_lfsr (k : ErrKind) (s : State) : (raiseError k s).regs.lfsr = s.regs.lfsr := rfl

@[simp] theorem raiseError_taps (k : ErrKind) (s : State) : (raiseError k s).regs.taps = s.regs.taps := rfl

@[simp] theorem raiseError_len (k : ErrKind) (s : State) : (raiseError k s).regs.len = s.regs.len := rfl

@[simp] theorem raiseError_dout (k : ErrKind) (s : State) : (raiseError k s).regs.dout = s.regs.dout := rfl

@[simp] theorem raiseError_status (k : ErrKind) (s : State) :
    (raiseError k s).regs.status = raiseFlag k s.regs.status := rfl

/-! ### releaseReset -/

@[simp] theorem State.releaseReset_nmax (s : State) : s.releaseReset.nmax = s.nmax := by
  unfold State.releaseReset; split <;> rfl

@[simp] theorem State.releaseReset_regs (s : State) : s.releaseReset.regs = s.regs := by
  unfold State.releaseReset; split <;> rfl

@[simp] theorem State.releaseReset_inputs (s : State) : s.releaseReset.inputs = s.inputs := by
  unfold State.releaseReset; split <;> rfl

@[simp] theorem State.releaseReset_outputs (s : State) : s.releaseReset.outputs = s.outputs := by
  unfold State.releaseReset; split <;> rfl

@[simp] theorem State.releaseReset_draws (s : State) : s.releaseReset.draws = s.draws := by
  unfold State.releaseReset; split <;> rfl

theorem State.releaseReset_phase (s : State) :
    s.releaseReset.phase = if s.phase = .inReset then .running else s.phase := by
  unfold State.releaseReset; split <;> simp_all

/-! ### The register writes -/

@[simp] theorem writeLen_nmax (v : Word) (s : State) : (writeLen v s).nmax = s.nmax := rfl

@[simp] theorem writeLen_phase (v : Word) (s : State) : (writeLen v s).phase = s.phase := rfl

@[simp] theorem writeLen_inputs (v : Word) (s : State) : (writeLen v s).inputs = s.inputs := rfl

@[simp] theorem writeLen_outputs (v : Word) (s : State) : (writeLen v s).outputs = s.outputs := rfl

@[simp] theorem writeLen_draws (v : Word) (s : State) : (writeLen v s).draws = s.draws := rfl

@[simp] theorem writeLen_lfsr (v : Word) (s : State) : (writeLen v s).regs.lfsr = s.regs.lfsr := rfl

@[simp] theorem writeLen_taps (v : Word) (s : State) : (writeLen v s).regs.taps = s.regs.taps := rfl

@[simp] theorem writeLen_len (v : Word) (s : State) : (writeLen v s).regs.len = v.extractLsb' 0 6 := rfl

@[simp] theorem writeLen_dout (v : Word) (s : State) : (writeLen v s).regs.dout = s.regs.dout := rfl

@[simp] theorem writeLen_status (v : Word) (s : State) : (writeLen v s).regs.status = s.regs.status := rfl

@[simp] theorem writeTaps_nmax (v : Word) (s : State) : (writeTaps v s).nmax = s.nmax := rfl

@[simp] theorem writeTaps_phase (v : Word) (s : State) : (writeTaps v s).phase = s.phase := rfl

@[simp] theorem writeTaps_inputs (v : Word) (s : State) : (writeTaps v s).inputs = s.inputs := rfl

@[simp] theorem writeTaps_outputs (v : Word) (s : State) : (writeTaps v s).outputs = s.outputs := rfl

@[simp] theorem writeTaps_draws (v : Word) (s : State) : (writeTaps v s).draws = s.draws := rfl

@[simp] theorem writeTaps_lfsr (v : Word) (s : State) : (writeTaps v s).regs.lfsr = s.regs.lfsr := rfl

@[simp] theorem writeTaps_taps (v : Word) (s : State) : (writeTaps v s).regs.taps = lowBits s.nmax.val v := rfl

@[simp] theorem writeTaps_len (v : Word) (s : State) : (writeTaps v s).regs.len = s.regs.len := rfl

@[simp] theorem writeTaps_dout (v : Word) (s : State) : (writeTaps v s).regs.dout = s.regs.dout := rfl

@[simp] theorem writeTaps_status (v : Word) (s : State) : (writeTaps v s).regs.status = s.regs.status := rfl

@[simp] theorem writeState_nmax (v : Word) (s : State) : (writeState v s).nmax = s.nmax := rfl

@[simp] theorem writeState_phase (v : Word) (s : State) : (writeState v s).phase = s.phase := rfl

@[simp] theorem writeState_inputs (v : Word) (s : State) : (writeState v s).inputs = s.inputs := rfl

@[simp] theorem writeState_outputs (v : Word) (s : State) : (writeState v s).outputs = s.outputs := rfl

@[simp] theorem writeState_draws (v : Word) (s : State) : (writeState v s).draws = s.draws := rfl

@[simp] theorem writeState_lfsr (v : Word) (s : State) : (writeState v s).regs.lfsr = lowBits s.nmax.val v := rfl

@[simp] theorem writeState_taps (v : Word) (s : State) : (writeState v s).regs.taps = s.regs.taps := rfl

@[simp] theorem writeState_len (v : Word) (s : State) : (writeState v s).regs.len = s.regs.len := rfl

@[simp] theorem writeState_dout (v : Word) (s : State) : (writeState v s).regs.dout = s.regs.dout := rfl

@[simp] theorem writeState_status (v : Word) (s : State) : (writeState v s).regs.status = s.regs.status := rfl

@[simp] theorem writeStatus_nmax (v : Word) (s : State) : (writeStatus v s).nmax = s.nmax := rfl

@[simp] theorem writeStatus_phase (v : Word) (s : State) : (writeStatus v s).phase = s.phase := rfl

@[simp] theorem writeStatus_inputs (v : Word) (s : State) : (writeStatus v s).inputs = s.inputs := rfl

@[simp] theorem writeStatus_outputs (v : Word) (s : State) : (writeStatus v s).outputs = s.outputs := rfl

@[simp] theorem writeStatus_draws (v : Word) (s : State) : (writeStatus v s).draws = s.draws := rfl

@[simp] theorem writeStatus_lfsr (v : Word) (s : State) : (writeStatus v s).regs.lfsr = s.regs.lfsr := rfl

@[simp] theorem writeStatus_taps (v : Word) (s : State) : (writeStatus v s).regs.taps = s.regs.taps := rfl

@[simp] theorem writeStatus_len (v : Word) (s : State) : (writeStatus v s).regs.len = s.regs.len := rfl

@[simp] theorem writeStatus_dout (v : Word) (s : State) : (writeStatus v s).regs.dout = s.regs.dout := rfl

@[simp] theorem writeStatus_status (v : Word) (s : State) : (writeStatus v s).regs.status = clearFlags s.regs.status v := rfl

/-! ### The registers after the commands -/

@[simp] theorem stepRegs_lfsr (n : Nat) (r : Regs) : (stepRegs n r).lfsr = shiftWord n r.taps r.lfsr := rfl

@[simp] theorem stepRegs_taps (n : Nat) (r : Regs) : (stepRegs n r).taps = r.taps := rfl

@[simp] theorem stepRegs_len (n : Nat) (r : Regs) : (stepRegs n r).len = r.len := rfl

@[simp] theorem stepRegs_dout (n : Nat) (r : Regs) : (stepRegs n r).dout = bitByte (outBit r.lfsr) := rfl

@[simp] theorem stepRegs_status (n : Nat) (r : Regs) : (stepRegs n r).status = r.status := rfl

@[simp] theorem ksbyteRegs_lfsr (n : Nat) (r : Regs) : (ksbyteRegs n r).lfsr = keystreamNext n r.taps r.lfsr := rfl

@[simp] theorem ksbyteRegs_taps (n : Nat) (r : Regs) : (ksbyteRegs n r).taps = r.taps := rfl

@[simp] theorem ksbyteRegs_len (n : Nat) (r : Regs) : (ksbyteRegs n r).len = r.len := rfl

@[simp] theorem ksbyteRegs_dout (n : Nat) (r : Regs) : (ksbyteRegs n r).dout = keystreamByte n r.taps r.lfsr := rfl

@[simp] theorem ksbyteRegs_status (n : Nat) (r : Regs) : (ksbyteRegs n r).status = r.status := rfl

@[simp] theorem cipherRegs_lfsr (d : Byte) (n : Nat) (r : Regs) : (cipherRegs d n r).lfsr = keystreamNext n r.taps r.lfsr := rfl

@[simp] theorem cipherRegs_taps (d : Byte) (n : Nat) (r : Regs) : (cipherRegs d n r).taps = r.taps := rfl

@[simp] theorem cipherRegs_len (d : Byte) (n : Nat) (r : Regs) : (cipherRegs d n r).len = r.len := rfl

@[simp] theorem cipherRegs_dout (d : Byte) (n : Nat) (r : Regs) : (cipherRegs d n r).dout = d ^^^ keystreamByte n r.taps r.lfsr := rfl

@[simp] theorem cipherRegs_status (d : Byte) (n : Nat) (r : Regs) : (cipherRegs d n r).status = r.status := rfl

end Sys2Proof.Machine
end

