-- ==== Sys2Proof/Laws/Ops.lean ====
section
/-! SUPPORT. What each shared operation, each access and each step can do, said once. -/

namespace Sys2Proof.Machine

/-! ### The preamble and the stepping commands -/

theorem lenOk_iff (nmax : NMax) (r : Regs) :
    lenOk nmax r = true ↔ 1 ≤ r.len.toNat ∧ r.len.toNat ≤ nmax.val := by simp [lenOk]

/-- taps_ok, bit by bit (10_state.md R29). -/
theorem tapsOk_iff (r : Regs) :
    tapsOk r = true ↔ ∀ t, r.len.toNat ≤ t → r.taps.getLsbD t = false := by
  simp only [tapsOk, beq_iff_eq, ushiftRight_eq_zero_iff]

theorem State.Configured.one_le {s : State} (h : s.Configured) : 1 ≤ s.regs.len.toNat :=
  ((lenOk_iff _ _).1 h.1).1

theorem State.Configured.le_nmax {s : State} (h : s.Configured) : s.regs.len.toNat ≤ s.nmax.val :=
  ((lenOk_iff _ _).1 h.1).2

theorem State.Configured.le_32 {s : State} (h : s.Configured) : s.regs.len.toNat ≤ 32 :=
  Nat.le_trans h.le_nmax s.nmax.le

/-- A configured block's taps are all below n, so TAPS[n-1:0] is all of TAPS. -/
theorem State.Configured.lowBits_taps {s : State} (h : s.Configured) :
    lowBits s.regs.len.toNat s.regs.taps = s.regs.taps :=
  (lowBits_eq_self_iff _ _).2 ((tapsOk_iff _).1 h.2)

/-- A configured block stays configured when only STATE, DOUT and STATUS change. -/
theorem State.Configured.of_same {s t : State} (h : s.Configured) (hn : t.nmax = s.nmax)
    (hl : t.regs.len = s.regs.len) (ht : t.regs.taps = s.regs.taps) : t.Configured := by
  simpa [State.Configured, lenOk, tapsOk, hn, hl, ht] using h

/-- A stepping command whose checks pass runs (41_lfsr.md R102). -/
theorem stepping_of_configured (f : Nat → Regs → Regs) {s : State} (h : s.Configured) :
    stepping f s = .next (s.setRegs (f s.regs.len.toNat s.regs)) := by
  simp [stepping, preamble, h.1, h.2]

theorem stepping_of_not_lenOk (f : Nat → Regs → Regs) {s : State} (h : lenOk s.nmax s.regs = false) :
    stepping f s = .next (raiseError .len s) := by
  simp [stepping, preamble, h]

theorem stepping_of_not_tapsOk (f : Nat → Regs → Regs) {s : State} (hl : lenOk s.nmax s.regs = true)
    (ht : tapsOk s.regs = false) : stepping f s = .next (raiseError .tap s) := by
  simp [stepping, preamble, hl, ht]

/-- All a stepping command can do (41_lfsr.md R102). -/
theorem stepping_cases (f : Nat → Regs → Regs) (s : State) :
    (s.Configured ∧ stepping f s = .next (s.setRegs (f s.regs.len.toNat s.regs)))
    ∨ (lenOk s.nmax s.regs = false ∧ stepping f s = .next (raiseError .len s))
    ∨ (lenOk s.nmax s.regs = true ∧ tapsOk s.regs = false ∧ stepping f s = .next (raiseError .tap s)) := by
  cases hl : lenOk s.nmax s.regs with
  | false => exact .inr (.inl ⟨rfl, stepping_of_not_lenOk f hl⟩)
  | true =>
    cases ht : tapsOk s.regs with
    | false => exact .inr (.inr ⟨rfl, rfl, stepping_of_not_tapsOk f hl ht⟩)
    | true => exact .inl ⟨⟨hl, ht⟩, stepping_of_configured f ⟨hl, ht⟩⟩

/-- The effect of a command on the registers once its checks have passed (30_encoding.md R72). -/
def commandRegs : Instr → Nat → Regs → Regs
  | .nop, _, r => r
  | .step, n, r => stepRegs n r
  | .ksbyte, n, r => ksbyteRegs n r
  | .cipher d, n, r => cipherRegs d n r

/-- A stepping command is `stepping` of its effect. -/
theorem exec_stepping (i : Instr) (h : isStepping i = true) (s : State) :
    exec i s = stepping (commandRegs i) s := by
  cases i with
  | nop => cases h
  | step => rfl
  | ksbyte => rfl
  | cipher d => rfl

/-- All a command can do: NOP nothing, a stepping command its effect or one error (60_exceptions.md R133). -/
theorem exec_cases (i : Instr) (s : State) :
    (i = .nop ∧ exec i s = .next s)
    ∨ (isStepping i = true ∧ s.Configured
        ∧ exec i s = .next (s.setRegs (commandRegs i s.regs.len.toNat s.regs)))
    ∨ (isStepping i = true ∧ lenOk s.nmax s.regs = false ∧ exec i s = .next (raiseError .len s))
    ∨ (isStepping i = true ∧ lenOk s.nmax s.regs = true ∧ tapsOk s.regs = false
        ∧ exec i s = .next (raiseError .tap s)) := by
  cases hi : isStepping i with
  | false =>
    cases i with
    | nop => exact .inl ⟨rfl, rfl⟩
    | step => cases hi
    | ksbyte => cases hi
    | cipher d => cases hi
  | true =>
    rw [exec_stepping i hi s]
    rcases stepping_cases (commandRegs i) s with ⟨hc, he⟩ | ⟨hl, he⟩ | ⟨hl, ht, he⟩
    · exact .inr (.inl ⟨rfl, hc, he⟩)
    · exact .inr (.inr (.inl ⟨rfl, hl, he⟩))
    · exact .inr (.inr (.inr ⟨rfl, hl, ht, he⟩))

/-- A command of a configured block completes with its effect. -/
theorem exec_of_configured (i : Instr) {s : State} (h : s.Configured) :
    exec i s = .next (s.setRegs (commandRegs i s.regs.len.toNat s.regs)) := by
  cases i with
  | nop => rfl
  | step => exact stepping_of_configured _ h
  | ksbyte => exact stepping_of_configured _ h
  | cipher d => exact stepping_of_configured _ h

@[simp] theorem commandRegs_len (i : Instr) (n : Nat) (r : Regs) : (commandRegs i n r).len = r.len := by
  cases i <;> rfl

@[simp] theorem commandRegs_taps (i : Instr) (n : Nat) (r : Regs) : (commandRegs i n r).taps = r.taps := by
  cases i <;> rfl

@[simp] theorem commandRegs_status (i : Instr) (n : Nat) (r : Regs) :
    (commandRegs i n r).status = r.status := by
  cases i <;> rfl

/-- A command's STATE is its number of shifts on the old one (30_encoding.md R72). -/
theorem commandRegs_lfsr (i : Instr) (n : Nat) (r : Regs) :
    (commandRegs i n r).lfsr = shifts n r.taps (shiftCount i) r.lfsr := by
  cases i with
  | nop => rfl
  | step => rfl
  | ksbyte => exact keystreamNext_eq_shifts n r.taps r.lfsr
  | cipher d => exact keystreamNext_eq_shifts n r.taps r.lfsr

/-- A command leaves a configured block configured. -/
theorem configured_commandRegs (i : Instr) {s : State} (h : s.Configured) :
    (s.setRegs (commandRegs i s.regs.len.toNat s.regs)).Configured :=
  h.of_same rfl (commandRegs_len _ _ _) (commandRegs_taps _ _ _)

/-- Any commands of a configured block complete: LEN, TAPS and STATUS stay, and STATE makes all their shifts. -/
theorem execAll_of_configured (cs : List Instr) {s : State} (h : s.Configured) :
    ∃ t, execAll cs s = .next t ∧ t.Configured ∧ t.regs.len = s.regs.len ∧ t.regs.taps = s.regs.taps
      ∧ t.regs.status = s.regs.status
      ∧ t.regs.lfsr = shifts s.regs.len.toNat s.regs.taps (cs.map shiftCount).sum s.regs.lfsr := by
  induction cs generalizing s with
  | nil => exact ⟨s, rfl, h, rfl, rfl, rfl, rfl⟩
  | cons c cs ih =>
    obtain ⟨t, he, hc, hl, ht, hs, hf⟩ := ih (configured_commandRegs c h)
    refine ⟨t, ?_, hc, ?_, ?_, ?_, ?_⟩
    · simp only [execAll, exec_of_configured c h]; exact he
    · simpa using hl
    · simpa using ht
    · simpa using hs
    · simpa [commandRegs_lfsr, shifts_add] using hf

theorem execAll_append (cs ds : List Instr) (s : State) :
    execAll (cs ++ ds) s =
      match execAll cs s with
      | .next t => execAll ds t
      | .fault f => .fault f
      | .refused f => .refused f := by
  induction cs generalizing s with
  | nil => rfl
  | cons c cs ih =>
    simp only [List.cons_append, execAll]
    cases exec c s with
    | next t => exact ih t
    | fault f => rfl
    | refused f => rfl

/-! ### Bus accesses -/

theorem illegalAccess_iff (a : BusAccess) : illegalAccess a = true ↔ AccessIllegal a := by
  simp only [illegalAccess, AccessIllegal, Bool.or_eq_true, Bool.not_eq_true', decide_eq_true_eq,
    Bool.and_eq_true, or_assoc]

theorem accessTarget_of_illegal {a : BusAccess} (h : AccessIllegal a) : accessTarget a = none := by
  simp [accessTarget, (illegalAccess_iff a).2 h]

theorem regAt_regOffset (r : Reg) : regAt (regOffset r) = some r := by cases r <;> rfl

theorem regAt_eq_some_iff (off : Fin 32) (r : Reg) : regAt off = some r ↔ off = regOffset r := by
  revert off
  cases r <;> decide

/-- An aligned offset other than the reserved slot holds a register (10_state.md R20). -/
theorem regAt_isSome (off : Fin 32) (h4 : off.val % 4 = 0) (h : off.val ≠ 0x1C) : (regAt off).isSome = true := by
  revert off
  decide

/-- A legal access reaches the register at its offset; only ID and DOUT are closed to writes (20_memory.md R52, R53). -/
theorem accessTarget_of_legal {a : BusAccess} (h : ¬ AccessIllegal a) :
    ∃ r, accessTarget a = some r ∧ a.off = regOffset r ∧ (a.kind = .write → r ≠ .id ∧ r ≠ .dout) := by
  have hi : illegalAccess a = false := by
    cases hb : illegalAccess a with
    | false => rfl
    | true => exact absurd ((illegalAccess_iff a).1 hb) h
  simp only [AccessIllegal, not_or, not_and, not_not] at h
  obtain ⟨r, hr⟩ := Option.isSome_iff_exists.1 (regAt_isSome a.off h.2.1 h.2.2.1)
  have ho := (regAt_eq_some_iff _ _).1 hr
  refine ⟨r, by simp [accessTarget, hi, hr], ho, fun hk => ?_⟩
  have hw := h.2.2.2 hk
  constructor
  · rintro rfl; exact hw.1 (by rw [ho]; rfl)
  · rintro rfl; exact hw.2 (by rw [ho]; rfl)

theorem legal_rdAccess (r : Reg) : ¬ AccessIllegal (rdAccess r) := by cases r <;> decide

/-- An access reaches r exactly when it is legal and at r's offset. -/
theorem accessTarget_eq_some_iff (a : BusAccess) (r : Reg) :
    accessTarget a = some r ↔ ¬ AccessIllegal a ∧ a.off = regOffset r := by
  constructor
  · intro h
    by_cases hi : AccessIllegal a
    · rw [accessTarget_of_illegal hi] at h; cases h
    · obtain ⟨q, hq, ho, -⟩ := accessTarget_of_legal hi
      rw [hq] at h; cases h
      exact ⟨hi, ho⟩
  · rintro ⟨hi, ho⟩
    obtain ⟨q, hq, ho', -⟩ := accessTarget_of_legal hi
    have : q = r := by
      have := (regAt_regOffset q).symm.trans ((congrArg regAt (ho'.symm.trans ho)).trans (regAt_regOffset r))
      exact Option.some.inj this
    rw [hq, this]

theorem accessTarget_rdAccess (r : Reg) : accessTarget (rdAccess r) = some r := by cases r <;> decide

/-- Legality does not look at the data. -/
theorem accessIllegal_wdata (a : BusAccess) (v : Word) : AccessIllegal { a with wdata := v } ↔ AccessIllegal a :=
  Iff.rfl

theorem legal_wrAccess (r : Reg) (v : Word) (hi : r ≠ .id) (hd : r ≠ .dout) : ¬ AccessIllegal (wrAccess r v) := by
  rw [show wrAccess r v = { wrAccess r 0#32 with wdata := v } from rfl, accessIllegal_wdata]
  cases r with
  | id => exact absurd rfl hi
  | dout => exact absurd rfl hd
  | cmd => decide
  | status => decide
  | len => decide
  | taps => decide
  | state => decide

theorem accessTarget_wrAccess (r : Reg) (v : Word) (hi : r ≠ .id) (hd : r ≠ .dout) :
    accessTarget (wrAccess r v) = some r :=
  (accessTarget_eq_some_iff _ _).2 ⟨legal_wrAccess r v hi hd, rfl⟩

/-- All a CMD write can do (30_encoding.md R70). -/
theorem writeCmd_cases (w : Word) (s : State) :
    (∃ i, decode w = .ok i ∧ writeCmd w s = exec i s)
    ∨ (∃ why, decode w = .error why ∧ writeCmd w s = .next (raiseError .cmd s)) := by
  unfold writeCmd
  cases decode w with
  | ok i => exact .inl ⟨i, rfl, rfl⟩
  | error why => exact .inr ⟨why, rfl, rfl⟩

/-- A command always answers a next state: errors are flags, not stops (60_exceptions.md R130). -/
theorem exec_isNext (i : Instr) (s : State) : ∃ t, exec i s = .next t := by
  rcases exec_cases i s with ⟨-, h⟩ | ⟨-, -, h⟩ | ⟨-, -, h⟩ | ⟨-, -, -, h⟩ <;> exact ⟨_, h⟩

theorem writeReg_isNext (r : Reg) (v : Word) (s : State) : ∃ t, writeReg r v s = .next t := by
  cases r with
  | cmd =>
    rcases writeCmd_cases v s with ⟨i, -, h⟩ | ⟨why, -, h⟩
    · obtain ⟨t, ht⟩ := exec_isNext i s; exact ⟨t, h.trans ht⟩
    · exact ⟨_, h⟩
  | status => exact ⟨_, rfl⟩
  | len => exact ⟨_, rfl⟩
  | taps => exact ⟨_, rfl⟩
  | state => exact ⟨_, rfl⟩
  | id => exact ⟨_, rfl⟩
  | dout => exact ⟨_, rfl⟩

theorem busAccess_of_illegal {a : BusAccess} (h : AccessIllegal a) (s : State) :
    busAccess a s = .next ((raiseError .acc s).respond (errorResponse a.kind)) := by
  simp [busAccess, accessTarget_of_illegal h]

theorem busAccess_read {a : BusAccess} {r : Reg} (h : accessTarget a = some r) (hk : a.kind = .read) (s : State) :
    busAccess a s = .next (s.respond (.read .okay (readReg r s))) := by
  simp [busAccess, h, hk]

theorem busAccess_write {a : BusAccess} {r : Reg} (h : accessTarget a = some r) (hk : a.kind = .write) (s : State) :
    busAccess a s = answering (.write .okay) (writeReg r a.wdata s) := by
  simp [busAccess, h, hk]

/-- All a bus access to a running block can do (20_memory.md R52, R53, R55). -/
theorem busAccess_cases (a : BusAccess) (s : State) :
    (AccessIllegal a ∧ busAccess a s = .next ((raiseError .acc s).respond (errorResponse a.kind)))
    ∨ (∃ r, accessTarget a = some r ∧ a.kind = .read
        ∧ busAccess a s = .next (s.respond (.read .okay (readReg r s))))
    ∨ (∃ r t, accessTarget a = some r ∧ a.kind = .write ∧ r ≠ .id ∧ r ≠ .dout
        ∧ writeReg r a.wdata s = .next t ∧ busAccess a s = .next (t.respond (.write .okay))) := by
  by_cases h : AccessIllegal a
  · exact .inl ⟨h, busAccess_of_illegal h s⟩
  · obtain ⟨r, hr, -, hw⟩ := accessTarget_of_legal h
    cases hk : a.kind with
    | read => exact .inr (.inl ⟨r, hr, rfl, busAccess_read hr hk s⟩)
    | write =>
      obtain ⟨t, ht⟩ := writeReg_isNext r a.wdata s
      exact .inr (.inr ⟨r, t, hr, rfl, (hw hk).1, (hw hk).2, ht, by rw [busAccess_write hr hk, ht]; rfl⟩)

/-! ### Steps -/

theorem step_idle {s : State} (h : s.inputs = []) : step s = .next s := by
  simp [step, nextTransition, h]

theorem step_event {s : State} {e : HostEvent} {rest : List HostEvent} (h : s.inputs = e :: rest) :
    step s = handleEvent e (s.withInputs rest) := by
  simp [step, nextTransition, h]

theorem step_access {s : State} {a : BusAccess} {rest : List HostEvent} (hp : s.phase = .running)
    (h : s.inputs = .access a :: rest) : step s = busAccess a (s.withInputs rest) := by
  rw [step_event h]
  simp [handleEvent, whenRunning, hp]

/-- All a step can do: idle, an access of a running block, or one of the four events of the reset input and the power. -/
theorem step_cases {s t : State} (h : step s = .next t) :
    (s.inputs = [] ∧ t = s)
    ∨ (∃ a rest, s.inputs = .access a :: rest ∧ s.phase = .running
        ∧ busAccess a (s.withInputs rest) = .next t)
    ∨ (∃ rest, s.inputs = .assertReset :: rest ∧ t = (s.withInputs rest).assertReset)
    ∨ (∃ rest, s.inputs = .releaseReset :: rest ∧ t = (s.withInputs rest).releaseReset)
    ∨ (∃ w rest, s.inputs = .resetDuringCommand w :: rest ∧ s.phase = .running
        ∧ t = (s.withInputs rest).abandonCommand)
    ∨ (∃ rest, s.inputs = .powerLost :: rest ∧ t = (s.withInputs rest).losePower) := by
  cases hin : s.inputs with
  | nil =>
    rw [step_idle hin] at h; cases h
    exact .inl ⟨rfl, rfl⟩
  | cons e rest =>
    right
    rw [step_event hin] at h
    cases e with
    | access a =>
      cases hp : s.phase with
      | running =>
        refine .inl ⟨a, rest, rfl, rfl, ?_⟩
        simpa [handleEvent, whenRunning, hp] using h
      | inReset => simp [handleEvent, whenRunning, hp] at h
      | unreset => simp [handleEvent, whenRunning, hp] at h
    | assertReset => cases h; exact .inr (.inl ⟨rest, rfl, rfl⟩)
    | releaseReset => cases h; exact .inr (.inr (.inl ⟨rest, rfl, rfl⟩))
    | resetDuringCommand w =>
      cases hp : s.phase with
      | running =>
        simp [handleEvent, whenRunning, hp] at h
        exact .inr (.inr (.inr (.inl ⟨w, rest, rfl, rfl, h.symm⟩)))
      | inReset => simp [handleEvent, whenRunning, hp] at h
      | unreset => simp [handleEvent, whenRunning, hp] at h
    | powerLost => cases h; exact .inr (.inr (.inr (.inr ⟨rest, rfl, rfl⟩)))

/-! ### Runs -/

/-- `run` is the host's own runner of the machine. -/
theorem run_eq_core_run (k : Nat) (s : State) : run k s = Host.Core.run Sys2Proof.core k s := by
  induction k generalizing s with
  | zero => rfl
  | succ k ih =>
    simp only [run, Host.Core.run]
    cases h : step s with
    | next t => rw [show Sys2Proof.core.step s = .next t from h]; exact ih t
    | fault f => rw [show Sys2Proof.core.step s = .fault f from h]; rfl
    | refused f => rw [show Sys2Proof.core.step s = .refused f from h]; rfl

theorem run_succ_of_step {s t : State} (h : step s = .next t) (k : Nat) : run (k + 1) s = run k t := by
  simp only [run, h]

theorem run_add_of_run {j : Nat} {s t : State} (h : run j s = .next t) (k : Nat) :
    run (j + k) s = run k t := by
  induction j generalizing s with
  | zero => cases h; rw [Nat.zero_add]
  | succ j ih =>
    rw [Nat.succ_add]
    simp only [run] at h ⊢
    cases hs : step s with
    | next u => rw [hs] at h; exact ih h
    | fault f => rw [hs] at h; cases h
    | refused f => rw [hs] at h; cases h

end Sys2Proof.Machine
end

