-- ==== Sys2Proof/Laws/PerInstr.lean ====
section
/-! SUPPORT. The family EncodesItsRow: the encoder's word of a well-formed command matches that command's row of the
table, and no other (30_encoding.md R74). -/

namespace Sys2Proof.Laws.EncodesItsRow

/-- A command's row (30_encoding.md R74). -/
def row : Instr → CommandRow
  | .nop => rowNop
  | .step => rowStep
  | .ksbyte => rowKsbyte
  | .cipher _ => rowCipher

/-- The word of a well-formed command matches its row, and has the row's operation code. -/
def Statement (i : Instr) : Prop :=
  i.wf = true → (row i).matchesWord (encode i) = true ∧ opField (encode i) = opField (row i).pattern

theorem nop : Statement .nop := by intro _; decide

theorem step : Statement .step := by intro _; decide

theorem ksbyte : Statement .ksbyte := by intro _; decide

theorem cipher (data : Byte) : Statement (.cipher data) := by
  intro _
  revert data
  decide

end Sys2Proof.Laws.EncodesItsRow
end

