-- ==== Sys2Proof/Tests/Slice0.lean ====
section
/-! SUPPORT. The model's own tests, with expected values from spec 95_test_vectors.md and the rules' examples; ill-formed
terms for each check; and for each statement with hypotheses a state that meets them (`witness_<statement>`). -/

namespace Sys2Proof.Tests

open Sys2Proof Sys2Proof.Machine

/-- A block with these LEN, TAPS, STATE and DOUT, its other registers as after reset. -/
def block (len : BitVec 6) (taps lfsr : Word) (dout : Byte) : State :=
  State.reset.setRegs { Regs.reset with len := len, taps := taps, lfsr := lfsr, dout := dout }

/-- The configuration of W1 and V-ST-1: taps [1,4,6], seed [0,1,0,1,1,0,0,1]. -/
def w1 : State := block 8 0x52 0x9A 0x00

/-- A build with NMAX = 8. -/
def nmax8 : NMax := ⟨8, by decide, by decide⟩

/-- The registers of a next state. -/
def regsOf : Host.Outcome State Fault Refusal → Option Regs
  | .next s => some s.regs
  | .fault _ => none
  | .refused _ => none

/-- DOUT, STATE and STATUS of a next state, as the tables of 95_test_vectors.md show them. -/
def shown (o : Host.Outcome State Fault Refusal) : Option (Byte × Word × BitVec 4) :=
  (regsOf o).map fun r => (r.dout, r.lfsr, r.status)

/-- The newest answer and STATUS of a next state. -/
def answer (o : Host.Outcome State Fault Refusal) : Option (Option BusResponse × BitVec 4) :=
  match o with
  | .next s => some (s.outputs.head?, s.regs.status)
  | .fault _ => none
  | .refused _ => none

/-- The engine of W1. -/
def engineW1 : Engine := { taps := [1, 4, 6], state := [false, true, false, true, true, false, false, true] }

/-! ### Decoding: words written out bit by bit from 30_encoding.md R71 -/

theorem test_decode_nop : decode 0b00000000000000000000000000000000#32 = .ok .nop := by decide

theorem test_decode_step : decode 0b00000000000000000000000000000001#32 = .ok .step := by decide

theorem test_decode_ksbyte : decode 0b00000000000000000000000000000010#32 = .ok .ksbyte := by decide

theorem test_decode_cipher : decode 0b00000000000000001010101100000011#32 = .ok (.cipher 0xAB#8) := by decide

theorem test_decode_reserved_field : decode 0b00000000000000000000000000010011#32 = .error .rsv0NotZero := by decide

theorem test_encode_cipher : encode (.cipher 0x48#8) = 0x00004803#32 := by decide

theorem test_decodeTableWord : decodeTableWord 32 0xFF03 = some (.cipher 0xFF#8) := by decide

/-! ### Ill-formed host statements, refused by each check (30_encoding.md R77, R78) -/

theorem test_illformed_cipher_above : HostStmt.wf NMax.default (.cipher 256) = false := by decide

theorem test_illformed_cipher_below : HostStmt.wf NMax.default (.cipher (-1)) = false := by decide

theorem test_illformed_xorByte : HostStmt.wf NMax.default (.xorByte 256) = false := by decide

theorem test_illformed_tap_negative : HostStmt.wf NMax.default (.setTaps [1, -1]) = false := by decide

theorem test_illformed_tap_at_nmax : HostStmt.wf nmax8 (.setTaps [8]) = false := by decide

theorem test_illformed_seed_empty : HostStmt.wf NMax.default (.seed []) = false := by decide

theorem test_illformed_seed_long : HostStmt.wf nmax8 (.seed (List.replicate 9 1)) = false := by decide

theorem test_illformed_seed_element : HostStmt.wf NMax.default (.seed [0, 2]) = false := by decide

theorem test_illformed_new : HostStmt.wf nmax8 (.new [8] [1]) = false ∧ HostStmt.wf nmax8 (.new [0] []) = false := by
  decide

theorem test_wellformed_edges :
    HostStmt.wf nmax8 (.new [0, 7, 7] (List.replicate 8 1)) = true ∧ HostStmt.wf nmax8 (.cipher 255) = true := by
  decide

theorem test_assemble_refuses : assemble nmax8 [.step, .setTaps [8]] = none := by decide

/-- Duplicate taps are merged (30_encoding.md R78, 90_conflicts.md C2). -/
theorem test_assemble_merges :
    assemble NMax.default [.setTaps [1, 4, 6, 4]] = some [wrAccess .taps 0x52#32] := by decide

/-- R77: CIPHER <imm8> is WR CMD, (imm8 << 8) | 0x3. -/
theorem test_assemble_cipher :
    assemble NMax.default [.cipher 0x48] = some [wrAccess .cmd 0x00004803#32] := by decide

/-! ### Commands -/

/-- V-ST-14. -/
theorem test_nop_at_len_0 : shown (exec .nop (block 0 0 0x9A 0x77)) = some (0x77#8, 0x9A#32, 0#4) := by decide

/-- V-ST-8: a wide register. -/
theorem test_step_wide : shown (exec .step (block 32 0x80200003 0xDEADBEEF 0)) = some (0x01#8, 0x6F56DF77#32, 0#4) := by
  decide

/-- V-ST-7: bits at n and above are ignored, then cleared. -/
theorem test_step_clears_above_n : shown (exec .step (block 4 0x1 0xF5 0)) = some (0x01#8, 0xA#32, 0#4) := by decide

/-- V-KS-2: feedback bits inside the byte, packed LSB first. -/
theorem test_ksbyte_n3 : shown (exec .ksbyte (block 3 0x3 0x1 0)) = some (0xE9#8, 0x4#32, 0#4) := by decide +kernel

/-- V-KS-1. -/
theorem test_ksbyte_n8 : shown (exec .ksbyte w1) = some (0x9A#8, 0xDE#32, 0#4) := by decide +kernel

/-- V-CI-4. -/
theorem test_cipher : shown (exec (.cipher 0x48) w1) = some (0xD2#8, 0xDE#32, 0#4) := by decide +kernel

/-- V-CI-5: ERR_LEN, and no ciphertext written. -/
theorem test_cipher_len_0 :
    shown (exec (.cipher 0x48) (block 0 0x52 0x9A 0x77)) = some (0x77#8, 0x9A#32, 0b0010#4) := by decide

/-! ### Errors -/

/-- V-ST-11: ERR_TAP, and DOUT is stale. -/
theorem test_error_tap : shown (exec .ksbyte (block 8 0x152 0x9A 0x5A)) = some (0x5A#8, 0x9A#32, 0b0100#4) := by decide

/-- V-ST-12: ERR_LEN only, not ERR_TAP. -/
theorem test_error_priority_len : shown (exec .step (block 0 0x80000000 0x9A 0)) = some (0#8, 0x9A#32, 0b0010#4) := by
  decide

/-- V-EN-7: ERR_CMD only, with LEN = 0; the access itself answers OKAY. -/
theorem test_error_cmd :
    answer (step (State.reset.driven [wrAccess .cmd 0x00000004])) = some (some (.write .okay), 0b0001#4) := by decide

/-- V-CF-15: a half-word CMD write issues no command and sets ERR_ACC only. -/
theorem test_error_acc_narrow :
    answer (step (State.reset.driven [{ wrAccess .cmd 1 with width := .two }]))
      = some (some (.write .error), 0b1000#4) := by decide

/-- V-CF-11 and V-CF-12: misaligned, and the reserved slot. -/
theorem test_error_acc_reads :
    answer (step (State.reset.driven [{ rdAccess .state with off := 0x16 }]))
        = some (some (.read .error 0#32), 0b1000#4)
      ∧ answer (step (State.reset.driven [{ rdAccess .state with off := 0x1C }]))
        = some (some (.read .error 0#32), 0b1000#4) := by decide

/-! ### Register accesses -/

/-- V-CF-1 and V-CF-2. -/
theorem test_read_id :
    answer (step (State.reset.driven [rdAccess .id])) = some (some (.read .okay 0x4C460120#32), 0#4)
      ∧ answer (step ((State.resetOf nmax8).driven [rdAccess .id])) = some (some (.read .okay 0x4C460108#32), 0#4) := by
  decide

/-- V-CF-3: bits at NMAX and above are dropped. -/
theorem test_write_taps :
    (regsOf (step ((State.resetOf nmax8).driven [wrAccess .taps 0x152]))).map Regs.taps = some 0x52#32 := by decide

/-- V-CF-5. -/
theorem test_write_len : (regsOf (step (State.reset.driven [wrAccess .len 0x48]))).map Regs.len = some 8#6 := by decide

/-- V-CF-7: only bit 2 is cleared. -/
theorem test_write_status :
    answer (step ((w1.setRegs { w1.regs with status := 0b1111 }).driven [wrAccess .status 0xFFFFFFF4]))
      = some (some (.write .okay), 0b1011#4) := by decide

/-- The first step after reset runs the command that `withFetchWord` places. -/
theorem test_withFetchWord :
    answer (step (State.reset.withFetchWord 32 2)) = some (some (.write .okay), 0b0010#4)
      ∧ answer (step (State.reset.withFetchWord 32 0)) = some (some (.write .okay), 0#4) := by decide

/-! ### The reference engine -/

/-- W1: the first shift. -/
theorem test_engine_shift :
    engineW1.shift.state = [true, false, true, true, false, false, true, false] ∧ engineW1.feedback = false
      ∧ engineW1.out = false := by decide

/-- V-ST-13: the first 16 outputs. -/
theorem test_engine_sequence :
    engineW1.generateSequence 16
      = [false, true, false, true, true, false, false, true, false, true, true, true, true, false, true, true] := by
  decide

/-- P3: the payload 0x48 0x49 0x00 0xFF. -/
theorem test_engine_cipher :
    engineW1.cipherPayload [0x48, 0x49, 0x00, 0xFF] = [0xD2#8, 0x97#8, 0x25#8, 0xAF#8] := by decide

/-! ### Witnesses: for each statement with hypotheses, a state that meets them all -/

theorem witness_IllegalWordsOnlySetErrCmd :
    (w1.driven [wrAccess .cmd 0x4]).phase = .running
      ∧ (w1.driven [wrAccess .cmd 0x4]).inputs = .access (wrAccess .cmd 0x4) :: []
      ∧ decode 0x4#32 = .error .reservedOp ∧ decode 0xF#32 = .error .reservedOp ∧ decode 0x10#32 = .error .rsv0NotZero
      ∧ decode 0x10000#32 = .error .rsv1NotZero ∧ decode 0x102#32 = .error .dataNotZero := by decide

/-- The second access has four byte strobes in place of a size. -/
theorem witness_StepRunsTheDecodedCommand :
    (w1.driven [commandAccess .step]).phase = .running
      ∧ (w1.driven [commandAccess .step]).inputs = .access (commandAccess .step) :: []
      ∧ (commandAccess .step).kind = .write ∧ (commandAccess .step).off.val = 0x04
      ∧ isFourBytes (commandAccess .step).width = true ∧ isFourBytes (.strobes 0b1111) = true
      ∧ decode (commandAccess .step).wdata = .ok .step := by decide

theorem witness_StepMakesOneShift : w1.Configured := by decide

/-- n = 1 and n = NMAX, the ends of the range. -/
theorem witness_StepMakesOneShift_edges :
    (block 1 1 1 0).Configured ∧ (block 32 0x80000001 0x80000001 0).Configured := by decide

theorem witness_KsbytePacksEightShiftsLsbFirst : (block 3 0x3 0x1 0).Configured := by decide

theorem witness_CipherXorsTheKeystreamByte : (block 8 0x52 0x9A 0x77).Configured := by decide

/-- LEN = 0, LEN just above NMAX, and a tap just at LEN. -/
theorem witness_FailedChecksSuppressTheCommand :
    isStepping .step = true ∧ isStepping .ksbyte = true ∧ isStepping (.cipher 0) = true
      ∧ (block 0 0 0 0).regs.len.toNat = 0 ∧ (block 33 0 0 0).nmax.val < (block 33 0 0 0).regs.len.toNat
      ∧ 1 ≤ (block 8 0x100 0 0).regs.len.toNat ∧ (block 8 0x100 0 0).regs.len.toNat ≤ (block 8 0x100 0 0).nmax.val
      ∧ ((block 8 0x100 0 0).regs.len.toNat ≤ 8 ∧ (block 8 0x100 0 0).regs.taps.getLsbD 8 = true) := by decide

/-- One configured and one that fails. -/
theorem witness_CommandsTouchOnlyStateDoutAndStatus :
    (regsOf (exec .step w1)).isSome = true ∧ w1.Configured ∧ (regsOf (exec .step State.reset)).isSome = true
      ∧ ¬ State.reset.Configured := by decide

theorem witness_StepCornerCases :
    ((block 1 1 1 0).Configured ∧ (block 1 1 1 0).regs.len = 1#6)
      ∧ ((block 32 0x80000000 5 0).Inv ∧ (block 32 0x80000000 5 0).regs.len.toNat = (block 32 0x80000000 5 0).nmax.val)
      ∧ (lenOk (block 4 0 0xF 0).nmax (block 4 0 0xF 0).regs = true ∧ (block 4 0 0xF 0).regs.taps = 0#32) := by decide

/-- The two differ in a bit at n and above. -/
theorem witness_ResultsDependOnlyOnTheLfsrBits :
    (block 4 0x1 0xF5 0).Configured ∧ (block 4 0x1 0x05 0).Configured
      ∧ (block 4 0x1 0xF5 0).regs.len = (block 4 0x1 0x05 0).regs.len
      ∧ lowBits (block 4 0x1 0xF5 0).regs.len.toNat (block 4 0x1 0xF5 0).regs.lfsr
        = lowBits (block 4 0x1 0xF5 0).regs.len.toNat (block 4 0x1 0x05 0).regs.lfsr
      ∧ lowBits (block 4 0x1 0xF5 0).regs.len.toNat (block 4 0x1 0xF5 0).regs.taps
        = lowBits (block 4 0x1 0xF5 0).regs.len.toNat (block 4 0x1 0x05 0).regs.taps
      ∧ (block 4 0x1 0xF5 0).regs.dout = (block 4 0x1 0x05 0).regs.dout ∧ isStepping .step = true := by decide

theorem witness_FirstOutputsAreTheSeedBits :
    w1.Configured ∧ 0 < w1.regs.len.toNat ∧ 7 < w1.regs.len.toNat ∧ (block 1 1 1 0).Configured
      ∧ 0 < (block 1 1 1 0).regs.len.toNat := by decide

/-- The second block's bits at n and above are not 0. -/
theorem witness_ZeroStateIsAFixedPoint :
    ((block 8 0x52 0 0).Configured ∧ isStepping .ksbyte = true
        ∧ lowBits (block 8 0x52 0 0).regs.len.toNat (block 8 0x52 0 0).regs.lfsr = 0#32)
      ∧ ((block 4 0x1 0xF0 0).Configured
        ∧ lowBits (block 4 0x1 0xF0 0).regs.len.toNat (block 4 0x1 0xF0 0).regs.lfsr = 0#32) := by decide

theorem witness_ShiftsAreLinear : (block 5 0x5 0x01 0).Configured := by decide

/-- One tap set with index 0 and one without. -/
theorem witness_ShiftIsInvertibleIffTapZero :
    ((block 3 0x3 0x1 0).Configured ∧ (block 3 0x3 0x1 0).regs.taps.getLsbD 0 = true
        ∧ lowBits (block 3 0x3 0x1 0).regs.len.toNat 0x5#32 = 0x5#32
        ∧ (stepLfsr (block 3 0x3 0x1 0) 0x5).isSome = true)
      ∧ (w1.Configured ∧ w1.regs.taps.getLsbD 0 = false) := by decide

theorem witness_KsbyteAgreesWithEightSteps : (block 5 0x5 0x01 0).Configured ∧ w1.Configured := by decide

/-- n = 8, the least length of the rule, and n = 32. -/
theorem witness_KsbyteReturnsTheLowByte :
    (w1.Configured ∧ 8 ≤ w1.regs.len.toNat)
      ∧ ((block 32 0x80000001 5 0).Configured ∧ 8 ≤ (block 32 0x80000001 5 0).regs.len.toNat) := by decide

theorem witness_MixedCommandsConsumeOneStream :
    engineW1.fits w1.nmax = true ∧ w1.Holds engineW1 ∧ isStepping .step = true ∧ isStepping .ksbyte = true
      ∧ isStepping (.cipher 0x48) = true := by decide

/-- The W1 engine, and the shortest and longest seeds a block of NMAX = 8 holds. -/
theorem witness_StepsReadOutGenerateSequence :
    State.reset.phase = .running ∧ engineW1.fits State.reset.nmax = true
      ∧ Engine.fits nmax8 { taps := [], state := [true] } = true ∧ engineW1.fits nmax8 = true := by decide

theorem witness_CipherReadsOutCipherFile :
    State.reset.phase = .running ∧ engineW1.fits State.reset.nmax = true := by decide

theorem witness_CipherRoundTrip : w1.phase = .running ∧ engineW1.fits w1.nmax = true := by decide

/-- Each register. -/
theorem witness_ReadsReturnTheRegisters :
    ∀ r ∈ [Reg.id, .cmd, .status, .len, .taps, .state, .dout],
      (w1.driven [rdAccess r]).phase = .running ∧ (w1.driven [rdAccess r]).inputs = .access (rdAccess r) :: []
        ∧ (rdAccess r).kind = .read ∧ isFourBytes (rdAccess r).width = true
        ∧ (rdAccess r).off.val = match r with
          | .id => 0x00 | .cmd => 0x04 | .status => 0x08 | .len => 0x0C | .taps => 0x10 | .state => 0x14
          | .dout => 0x18 := by decide

/-- Each of the four offsets. -/
theorem witness_WritesSetOneRegister :
    ∀ r ∈ [Reg.len, .taps, .state, .status],
      (w1.driven [wrAccess r 0x152]).phase = .running
        ∧ (w1.driven [wrAccess r 0x152]).inputs = .access (wrAccess r 0x152) :: []
        ∧ (wrAccess r 0x152).kind = .write ∧ isFourBytes (wrAccess r 0x152).width = true
        ∧ ((wrAccess r 0x152).off.val = 0x0C ∨ (wrAccess r 0x152).off.val = 0x10
          ∨ (wrAccess r 0x152).off.val = 0x14 ∨ (wrAccess r 0x152).off.val = 0x08) := by decide

/-- One access for each way to be illegal, and a read of CMD. -/
theorem witness_IllegalAccessesOnlySetErrAcc :
    (∀ a ∈ [{ rdAccess .dout with width := .one }, { rdAccess .dout with width := .strobes 0b0111 },
        { rdAccess .id with off := 0x1F }, { rdAccess .id with off := 0x01 }, { rdAccess .id with off := 0x1C },
        wrAccess .id 1, wrAccess .dout 1],
      (w1.driven [a]).phase = .running ∧ (w1.driven [a]).inputs = .access a :: [] ∧ AccessIllegal a)
    ∧ (w1.driven [rdAccess .cmd]).phase = .running
      ∧ (w1.driven [rdAccess .cmd]).inputs = .access (rdAccess .cmd) :: [] := by decide

/-- Each error, and none. -/
theorem witness_OneErrorPerAccessInOrder :
    (w1.driven [wrAccess .id 1]).phase = .running
      ∧ (w1.driven [wrAccess .id 1]).inputs = .access (wrAccess .id 1) :: []
      ∧ errorOf w1 (wrAccess .id 1) = some .acc ∧ errorOf w1 (wrAccess .cmd 0x13) = some .cmd
      ∧ errorOf (block 33 0 0 0) (wrAccess .cmd 1) = some .len ∧ errorOf (block 8 0x100 0 0) (wrAccess .cmd 2) = some .tap
      ∧ errorOf (block 0 0x80000000 0 0) (wrAccess .cmd 3) = some .len ∧ errorOf w1 (wrAccess .cmd 0x4803) = none := by
  decide

/-- W1 with ERR_TAP set and a write of STATUS to come that clears it. -/
def w1Flagged : State := (w1.setRegs { w1.regs with status := 0b0100 }).driven [wrAccess .status 0x4]

/-- A flag that a write of STATUS clears, and one that a command sets. -/
theorem witness_FlagsAreStickyAndSetOnlyByTheirError :
    (w1Flagged.inputs = .access (wrAccess .status 0x4) :: [] ∧ HostEvent.access (wrAccess .status 0x4) ≠ .powerLost
        ∧ w1Flagged.regs.status.getLsbD 2 = true
        ∧ (regsOf (step w1Flagged)).map (fun r => r.status.getLsbD 2) = some false)
    ∧ (State.reset.regs.status.getLsbD 1 = false
        ∧ (regsOf (step (State.reset.driven [commandAccess .step]))).map (fun r => r.status.getLsbD 1) = some true) := by
  decide

/-- A step that changes STATE and DOUT, one that changes LEN, and one that changes TAPS. -/
theorem witness_RegistersHaveOnlyTheirWriters :
    ((w1.driven [commandAccess .ksbyte]).inputs = .access (commandAccess .ksbyte) :: []
        ∧ HostEvent.access (commandAccess .ksbyte) ≠ .powerLost
        ∧ HostEvent.access (commandAccess .ksbyte) ≠ .assertReset
        ∧ (regsOf (step (w1.driven [commandAccess .ksbyte]))).map (fun r => (r.lfsr, r.dout))
          = some (0xDE#32, 0x9A#8))
      ∧ (regsOf (step (w1.driven [wrAccess .len 5]))).map Regs.len = some 5#6 ∧ w1.regs.len ≠ 5#6
      ∧ (regsOf (step (w1.driven [wrAccess .taps 5]))).map Regs.taps = some 5#32 ∧ w1.regs.taps ≠ 5#32 := by decide +kernel

theorem witness_OnlyCommandWritesAccumulate : w1.phase = .running ∧ w1.Configured := by decide

theorem witness_ReadAfterWriteReturnsWhatWasKept : (State.resetOf nmax8).phase = .running := by decide

theorem witness_ConstructionInAnyOrder :
    State.reset.phase = .running
      ∧ List.Perm [wrAccess .len 8, wrAccess .taps 0x52, wrAccess .state 0x9A] (configAccesses engineW1) := by decide

/-- LEN grows, to a length that is legal. -/
theorem witness_LengthChangeTakesTheBitsAsTheyStand :
    w1.phase = .running ∧ w1.Configured ∧ (block 12 0x52 0x4D 0).Configured ∧ (block 7 0x52 0x4D 0).Configured := by
  decide

/-- A read, a write, and one of each that is illegal. -/
theorem witness_EveryAccessIsAnsweredOnce :
    ∀ a ∈ [rdAccess .dout, wrAccess .taps 1, { rdAccess .dout with off := 0x1C }, wrAccess .dout 1],
      (w1.driven [a]).phase = .running ∧ (w1.driven [a]).inputs = .access a :: [] := by decide

/-- A step that is no read of STATUS. -/
theorem witness_FlagsBlockNothing :
    (regsOf (step (w1.driven [commandAccess .step]))).isSome = true
      ∧ (w1.driven [commandAccess .step]).inputs = .access (commandAccess .step) :: []
      ∧ (commandAccess .step).kind = .write := by decide

theorem witness_FailedCommandCanBeReissued :
    State.reset.phase = .running ∧ ¬ State.reset.Configured ∧ (regsOf (exec .step State.reset)).isSome = true := by decide

/-- The ends of the two ranges. -/
theorem witness_ByteLanesAreLittleEndian : (0 : Nat) < 8 ∧ 7 < 8 ∧ (0 : Nat) < 4 ∧ 3 < 4 := by decide

theorem witness_ResetGivesTheResetValues :
    (w1.withInputs [.assertReset, .releaseReset]).inputs = .assertReset :: .releaseReset :: []
      ∧ isStepping (.cipher 1) = true := by decide

theorem witness_ResetAbandonsAStalledCommand :
    (w1.withInputs [.resetDuringCommand 2]).phase = .running
      ∧ (w1.withInputs [.resetDuringCommand 2]).inputs = .resetDuringCommand 2 :: [] := by decide

/-- An access in reset, an access and a release to an unreset block, and a loss of power. -/
theorem witness_AccessesOutsideRunningAreRefused :
    ((w1.assertReset.driven [rdAccess .id]).inputs = .access (rdAccess .id) :: []
        ∧ (w1.assertReset.driven [rdAccess .id]).phase = .inReset)
      ∧ ((w1.losePower.driven [rdAccess .id]).inputs = .access (rdAccess .id) :: []
        ∧ (w1.losePower.driven [rdAccess .id]).phase = .unreset)
      ∧ (w1.withInputs [.powerLost]).inputs = .powerLost :: []
      ∧ ((w1.losePower.withInputs [.releaseReset]).phase = .unreset
        ∧ HostEvent.releaseReset ≠ .assertReset
        ∧ (regsOf (step (w1.losePower.withInputs [.releaseReset]))).isSome = true) :=
  ⟨by decide, ⟨rfl, rfl⟩, rfl, rfl, by decide, rfl⟩

theorem witness_IdleBlockStaysAsItIs : w1.inputs = [] := by decide

theorem witness_EveryStepKeepsTheInvariant :
    w1.Inv ∧ (regsOf (step (w1.driven [commandAccess .step]))).isSome = true
      ∧ (State.resetOf nmax8).assertReset.Inv := by decide

theorem witness_IdIsConstant : (regsOf (step (w1.driven [commandAccess .nop]))).isSome = true := by decide

/-- A host that resets the block, loses power, and resets it again. -/
theorem witness_WellDrivenRunsNeverStop :
    wellDriven .running [.access (rdAccess .id), .resetDuringCommand 2, .releaseReset, .powerLost, .releaseReset,
      .assertReset, .releaseReset, .access (commandAccess .step)] = true := by decide

theorem witness_NewConfiguresTheEngine : (State.resetOf nmax8).phase = .running ∧ engineW1.fits nmax8 = true := by decide

end Sys2Proof.Tests
end

section
/-! PROOFS. The family 10_state: what a stepping command does when its checks fail (10_state.md R29). -/

namespace Sys2Proof.Machine

/-- When len_ok is false (10_state.md R29). -/
theorem lenOk_eq_false_iff (nmax : NMax) (r : Regs) :
    lenOk nmax r = false ↔ r.len.toNat = 0 ∨ nmax.val < r.len.toNat := by
  rw [← Bool.not_eq_true, lenOk_iff]
  omega

/-- taps_ok is false exactly when some tap index is LEN or more (10_state.md R29). -/
theorem tapsOk_eq_false_iff (r : Regs) :
    tapsOk r = false ↔ ∃ t, r.len.toNat ≤ t ∧ r.taps.getLsbD t = true := by
  rw [← Bool.not_eq_true, tapsOk_iff]
  simp only [not_forall, exists_prop, Bool.not_eq_false]

/-- ERR_LEN is STATUS bit 1, and recording it changes no other field (60_exceptions.md R131, R132). -/
theorem raiseError_errLen_eq (s : State) :
    raiseError .len s = { s with regs := { s.regs with status := s.regs.status ||| 0b0010#4 } } := rfl

/-- ERR_TAP is STATUS bit 2, and recording it changes no other field (60_exceptions.md R131, R132). -/
theorem raiseError_errTap_eq (s : State) :
    raiseError .tap s = { s with regs := { s.regs with status := s.regs.status ||| 0b0100#4 } } := rfl

/-- Settles O10: every stepping command is `stepping` of its effect, whose two failing branches record one error. -/
theorem failedChecksSuppressTheCommand : Obligations.FailedChecksSuppressTheCommand := by
  intro s i hi
  rw [exec_stepping i hi s]
  constructor
  · intro hlen
    rw [stepping_of_not_lenOk _ ((lenOk_eq_false_iff _ _).2 hlen), raiseError_errLen_eq]
  · intro h1 hn htap
    have hlen : lenOk s.nmax s.regs = true := (lenOk_iff _ _).2 ⟨h1, hn⟩
    have htaps : tapsOk s.regs = false := (tapsOk_eq_false_iff _).2 htap
    rw [stepping_of_not_tapsOk _ hlen htaps, raiseError_errTap_eq]

end Sys2Proof.Machine
end

section
/-! PROOFS. The family 20_memory: what a legal read answers, and what an illegal access leaves behind (20_memory.md R52,
R55). -/

namespace Sys2Proof.Machine

/-- What the host has yet to send is no part of what a read returns (20_memory.md R60). -/
@[simp] theorem readReg_withInputs (r : Reg) (s : State) (es : List HostEvent) :
    readReg r (s.withInputs es) = readReg r s := by
  cases r <;> rfl

/-- A 4-byte read at the offset of a register is legal, CMD's and the read-only ones included (20_memory.md R55). -/
theorem legal_read_of_off {a : BusAccess} {r : Reg} (hk : a.kind = .read) (hw : isFourBytes a.width = true)
    (ho : a.off = regOffset r) : ¬ AccessIllegal a := by
  have haligned : (regOffset r).val % 4 = 0 := by cases r <;> rfl
  have hnamed : (regOffset r).val ≠ 0x1C := by cases r <;> decide
  simp [AccessIllegal, hk, hw, ho, haligned, hnamed]

/-- A legal read of a running block answers OKAY with the register's read value and changes no state (20_memory.md
R52). -/
theorem step_read {s : State} {a : BusAccess} {rest : List HostEvent} {r : Reg} (hp : s.phase = .running)
    (hin : s.inputs = .access a :: rest) (ht : accessTarget a = some r) (hk : a.kind = .read) :
    step s = .next { s with inputs := rest, outputs := .read .okay (readReg r s) :: s.outputs } := by
  rw [step_access hp hin, busAccess_read ht hk, readReg_withInputs]
  rfl

/-- An illegal access to a running block raises ERR_ACC and answers ERROR, and that is all (20_memory.md R55). -/
theorem step_illegal {s : State} {a : BusAccess} {rest : List HostEvent} (hp : s.phase = .running)
    (hin : s.inputs = .access a :: rest) (ha : AccessIllegal a) :
    step s = .next ((raiseError .acc (s.withInputs rest)).respond (errorResponse a.kind)) := by
  rw [step_access hp hin, busAccess_of_illegal ha]

/-- ERR_ACC is STATUS bit 3, and recording it changes no other field (60_exceptions.md R131, R132). -/
theorem raiseError_errAcc_eq (s : State) :
    raiseError .acc s = { s with regs := { s.regs with status := s.regs.status ||| 0b1000#4 } } := rfl

/-- The answer to an illegal access, by its kind (20_memory.md R55). -/
theorem errorResponse_eq (k : AccessKind) :
    errorResponse k = if k = .read then .read .error 0#32 else .write .error := by
  cases k <;> rfl

/-- Settles O26: an illegal access reaches no register, so `step` only raises ERR_ACC and answers ERROR; a read of CMD
is a legal read like any other. -/
theorem illegalAccessesOnlySetErrAcc : Obligations.IllegalAccessesOnlySetErrAcc := by
  constructor
  · intro s a rest hp hin ha
    rw [step_illegal hp hin ha, raiseError_errAcc_eq, errorResponse_eq]
    rfl
  · intro s rest hp hin
    exact step_read hp hin (accessTarget_rdAccess .cmd) rfl

/-- The three fields of ID: "LF", the version 1, and NMAX, which fits its 8 bits (10_state.md R22). -/
theorem idWord_fields (nmax : NMax) :
    (idWord nmax).extractLsb' 16 16 = 0x4C46#16 ∧ (idWord nmax).extractLsb' 8 8 = 0x01#8
      ∧ ((idWord nmax).extractLsb' 0 8).toNat = nmax.val := by
  have hfit : nmax.val < 2 ^ 8 := Nat.lt_of_le_of_lt nmax.le (by decide)
  refine ⟨?_, ?_, ?_⟩
  · rw [idWord, BitVec.extractLsb'_append_eq_of_le (by decide)]
    rfl
  · rw [idWord, BitVec.extractLsb'_append_eq_of_le (by decide)]
    rfl
  · rw [idWord, BitVec.extractLsb'_append_eq_right, BitVec.toNat_ofNat, Nat.mod_eq_of_lt hfit]

/-- Settles O24: a 4-byte read at a register's offset reaches that register, and `readReg` gives its value, the narrow
registers zero-extended. -/
theorem readsReturnTheRegisters : Obligations.ReadsReturnTheRegisters := by
  intro s a rest r hp hin hk hw hoff
  have ho : a.off = regOffset r := by cases r <;> exact Fin.ext hoff
  have ht : accessTarget a = some r := (accessTarget_eq_some_iff a r).2 ⟨legal_read_of_off hk hw ho, ho⟩
  refine ⟨readReg r s, step_read hp hin ht hk, ?_⟩
  cases r with
  | id => exact idWord_fields s.nmax
  | cmd => rfl
  | status => exact BitVec.toNat_setWidth_of_le (by decide)
  | len => exact BitVec.toNat_setWidth_of_le (by decide)
  | taps => rfl
  | state => rfl
  | dout => exact BitVec.toNat_setWidth_of_le (by decide)

end Sys2Proof.Machine
end

section
/-! PROOFS. The family 30_encoding: the four fields of a word, the words that match no row, and what writing one of them
to CMD does (30_encoding.md R71, R74, R75). -/

namespace Sys2Proof

/-! ### The fields of a word -/

/-- The four fields cover the whole word (30_encoding.md R71). -/
theorem append_fields (w : Word) : rsv1Field w ++ dataField w ++ rsv0Field w ++ opField w = w := by
  simp only [rsv1Field, dataField, rsv0Field, opField]
  rw [BitVec.extractLsb'_append_extractLsb'_eq_extractLsb' (start₁ := 8) (by decide),
    BitVec.extractLsb'_append_extractLsb'_eq_extractLsb' (start₁ := 4) (by decide),
    BitVec.extractLsb'_append_extractLsb'_eq_extractLsb' (start₁ := 0) (by decide), BitVec.extractLsb'_eq_self]

/-- Words are equal when their fields are (30_encoding.md R71). -/
theorem word_eq_iff (v w : Word) :
    v = w ↔ opField v = opField w ∧ rsv0Field v = rsv0Field w ∧ dataField v = dataField w
      ∧ rsv1Field v = rsv1Field w := by
  constructor
  · rintro rfl
    exact ⟨rfl, rfl, rfl, rfl⟩
  · rintro ⟨hop, hrsv0, hdata, hrsv1⟩
    rw [← append_fields v, ← append_fields w, hop, hrsv0, hdata, hrsv1]

@[simp] theorem opField_commandWord (op : BitVec 4) (data : Byte) : opField (commandWord op data) = op :=
  BitVec.extractLsb'_append_eq_right

@[simp] theorem rsv0Field_commandWord (op : BitVec 4) (data : Byte) : rsv0Field (commandWord op data) = 0#4 := by
  rw [rsv0Field, commandWord, BitVec.extractLsb'_append_eq_of_le (by decide)]
  exact BitVec.extractLsb'_append_eq_right

@[simp] theorem dataField_commandWord (op : BitVec 4) (data : Byte) : dataField (commandWord op data) = data := by
  rw [dataField, commandWord, BitVec.extractLsb'_append_eq_of_le (by decide),
    BitVec.extractLsb'_append_eq_of_le (by decide)]
  exact BitVec.extractLsb'_append_eq_right

@[simp] theorem rsv1Field_commandWord (op : BitVec 4) (data : Byte) : rsv1Field (commandWord op data) = 0#16 := by
  rw [rsv1Field, commandWord, BitVec.extractLsb'_append_eq_of_le (by decide),
    BitVec.extractLsb'_append_eq_of_le (by decide), BitVec.extractLsb'_append_eq_of_le (by decide)]
  exact BitVec.extractLsb'_eq_self

/-! ### The rows, field by field -/

/-- The row of a command without operand: every bit is fixed, so every field is (30_encoding.md R74). -/
theorem matchesWord_exact_iff (op : BitVec 4) (w : Word) :
    (CommandRow.mk (commandWord op 0#8) (BitVec.allOnes 32)).matchesWord w = true ↔
      opField w = op ∧ rsv0Field w = 0#4 ∧ dataField w = 0#8 ∧ rsv1Field w = 0#16 := by
  rw [CommandRow.matchesWord, beq_iff_eq, BitVec.and_allOnes, word_eq_iff]
  simp

theorem matchesWord_rowNop_iff (w : Word) :
    rowNop.matchesWord w = true ↔ opField w = 0x0#4 ∧ rsv0Field w = 0#4 ∧ dataField w = 0#8 ∧ rsv1Field w = 0#16 :=
  matchesWord_exact_iff 0x0#4 w

theorem matchesWord_rowStep_iff (w : Word) :
    rowStep.matchesWord w = true ↔ opField w = 0x1#4 ∧ rsv0Field w = 0#4 ∧ dataField w = 0#8 ∧ rsv1Field w = 0#16 :=
  matchesWord_exact_iff 0x1#4 w

theorem matchesWord_rowKsbyte_iff (w : Word) :
    rowKsbyte.matchesWord w = true ↔
      opField w = 0x2#4 ∧ rsv0Field w = 0#4 ∧ dataField w = 0#8 ∧ rsv1Field w = 0#16 :=
  matchesWord_exact_iff 0x2#4 w

/-- CIPHER's row leaves DATA free and fixes the other fields (30_encoding.md R74). -/
theorem matchesWord_rowCipher_iff (w : Word) :
    rowCipher.matchesWord w = true ↔ opField w = 0x3#4 ∧ rsv0Field w = 0#4 ∧ rsv1Field w = 0#16 := by
  have hop : opField (w &&& rowCipher.mask) = opField w :=
    BitVec.extractLsb'_and.trans BitVec.and_allOnes
  have hrsv0 : rsv0Field (w &&& rowCipher.mask) = rsv0Field w :=
    BitVec.extractLsb'_and.trans BitVec.and_allOnes
  have hdata : dataField (w &&& rowCipher.mask) = 0#8 :=
    BitVec.extractLsb'_and.trans BitVec.and_zero
  have hrsv1 : rsv1Field (w &&& rowCipher.mask) = rsv1Field w :=
    BitVec.extractLsb'_and.trans BitVec.and_allOnes
  have hpattern : rowCipher.pattern = commandWord 0x3#4 0#8 := rfl
  rw [CommandRow.matchesWord, beq_iff_eq, hpattern, word_eq_iff, hop, hrsv0, hdata, hrsv1]
  simp

/-! ### The illegal words -/

/-- The decoder calls a word illegal when it matches no row (30_encoding.md R70, R74). -/
theorem decode_error_iff_matches_none (w : Word) :
    (∃ why, decode w = .error why) ↔
      ¬ rowNop.matchesWord w = true ∧ ¬ rowStep.matchesWord w = true ∧ ¬ rowKsbyte.matchesWord w = true
        ∧ ¬ rowCipher.matchesWord w = true := by
  unfold decode
  split_ifs <;> simp [*]

/-- The four kinds of illegal words (30_encoding.md R75). -/
theorem decode_error_iff (w : Word) :
    (∃ why, decode w = .error why) ↔
      4 ≤ (opField w).toNat ∨ rsv0Field w ≠ 0#4 ∨ rsv1Field w ≠ 0#16
        ∨ (dataField w ≠ 0#8 ∧ (opField w).toNat ≤ 2) := by
  rw [decode_error_iff_matches_none, matchesWord_rowNop_iff, matchesWord_rowStep_iff, matchesWord_rowKsbyte_iff,
    matchesWord_rowCipher_iff]
  by_cases hrsv0 : rsv0Field w = 0#4
  · by_cases hrsv1 : rsv1Field w = 0#16
    · simp only [hrsv0, hrsv1, true_and, and_true, ne_eq, not_true_eq_false, false_or, ← BitVec.toNat_inj,
        BitVec.toNat_ofNat]
      omega
    · simp [hrsv1]
  · simp [hrsv0]

end Sys2Proof

namespace Sys2Proof.Machine

/-- Writing an illegal word records ERR_CMD and nothing else (30_encoding.md R75). -/
theorem writeCmd_of_error {w : Word} {why : IllegalCommand} (h : decode w = .error why) (s : State) :
    writeCmd w s = .next (raiseError .cmd s) := by
  simp [writeCmd, h]

/-- A legal 4-byte write to a running block answers OKAY to the register's write action (20_memory.md R53). -/
theorem step_wrAccess {s : State} {r : Reg} {v : Word} {rest : List HostEvent} (hp : s.phase = .running)
    (hin : s.inputs = .access (wrAccess r v) :: rest) (hi : r ≠ .id) (hd : r ≠ .dout) :
    step s = answering (.write .okay) (writeReg r v (s.withInputs rest)) := by
  rw [step_access hp hin, busAccess_write (accessTarget_wrAccess r v hi hd) rfl]
  rfl

/-- ERR_CMD is STATUS bit 0, and recording it changes no other field (60_exceptions.md R131, R132). -/
theorem raiseError_errCmd_eq (s : State) :
    raiseError .cmd s = { s with regs := { s.regs with status := s.regs.status ||| 0b0001#4 } } := rfl

/-- Settles O4: a word is illegal when it matches no row, which its fields decide; writing it takes the branch of
`writeCmd` that records ERR_CMD. -/
theorem illegalWordsOnlySetErrCmd : Obligations.IllegalWordsOnlySetErrCmd := by
  intro w
  refine ⟨decode_error_iff w, ?_⟩
  intro s rest why hp hin hw
  rw [step_wrAccess hp hin (by decide) (by decide), writeReg, writeCmd_of_error hw, raiseError_errCmd_eq]
  rfl

end Sys2Proof.Machine
end

section
/-! PROOFS. The family 41_lfsr: the feedback bit written out, and what NOP and STEP do (41_lfsr.md R100, R101, R103,
R104). -/

namespace Sys2Proof.Machine

/-- `parityBelow` as a fold over the bit indices; the start value stays outermost, which carries the induction. -/
theorem foldr_xor_range_eq_parityBelow (w : Word) (n : Nat) (b : Bool) :
    (List.range n).foldr (fun i acc => (w.getLsbD i).xor acc) b = (parityBelow n w).xor b := by
  induction n generalizing b with
  | zero => simp [parityBelow]
  | succ n ih => simp [List.range_succ, ih, parityBelow]

/-- The tapped bits are the bits of STATE AND TAPS (41_lfsr.md R100). -/
theorem tappedParity_eq_parityBelow (n : Nat) (taps lfsr : Word) :
    tappedParity n taps lfsr = parityBelow n (lfsr &&& taps) := by
  simpa [tappedParity] using foldr_xor_range_eq_parityBelow (lfsr &&& taps) n false

/-- The parity of a slice is the XOR of the bits below its end (00_scope.md R13). -/
theorem parity_lowBits (n : Nat) (w : Word) (h32 : n ≤ 32) : parity (lowBits n w) = parityBelow n w := by
  have hhigh : ∀ i, n ≤ i → (lowBits n w).getLsbD i = false := by
    intro i hi
    simp [getLsbD_lowBits, Nat.not_lt.2 hi]
  have hlow : ∀ i, i < n → (lowBits n w).getLsbD i = w.getLsbD i := by
    intro i hi
    simp [getLsbD_lowBits, hi]
  calc parity (lowBits n w) = parityBelow n (lowBits n w) := parityBelow_of_high_zero 32 n _ h32 hhigh
    _ = parityBelow n w := parityBelow_congr n _ _ hlow

/-- The feedback bit is the XOR of the tapped bits below n (41_lfsr.md R100). -/
theorem feedback_eq_tappedParity (n : Nat) (taps lfsr : Word) (h32 : n ≤ 32) :
    feedback n taps lfsr = tappedParity n taps lfsr := by
  rw [feedback, ← lowBits_and, parity_lowBits n _ h32, tappedParity_eq_parityBelow]

/-- Settles O7: a configured block's STEP is `stepRegs`, whose DOUT is the output bit and whose STATE is one shift. -/
theorem stepMakesOneShift : Obligations.StepMakesOneShift := by
  intro s hc
  refine ⟨s.setRegs (stepRegs s.regs.len.toNat s.regs), exec_of_configured .step hc, rfl, ?_, ?_⟩
  · intro b _
    exact getLsbD_bitByte (outBit s.regs.lfsr) b
  · intro i _
    rw [State.setRegs_regs, stepRegs_lfsr, getLsbD_shiftWord _ _ _ hc.one_le hc.le_32,
      feedback_eq_tappedParity _ _ _ hc.le_32]

/-- Settles O6: NOP's word has every field 0, and its arm answers the state it was given. -/
theorem nopChangesNothing : Obligations.NopChangesNothing := by
  refine ⟨by decide, ?_⟩
  intro s
  rfl

end Sys2Proof.Machine
end

section
/-! PROOFS. The family 42_keystream: what KSBYTE packs into DOUT (42_keystream.md R116, R117). -/

namespace Sys2Proof.Machine

/-- Bit b of the keystream byte is STATE[0] after b shifts, the output bit of the (b+1)-th (42_keystream.md R116). -/
theorem getLsbD_keystreamByte_of_lt (n : Nat) (taps lfsr : Word) {b : Nat} (hb : b < 8) :
    (keystreamByte n taps lfsr).getLsbD b = (shifts n taps b lfsr).getLsbD 0 := by
  rw [getLsbD_keystreamByte, decide_eq_true hb, Bool.true_and, outBit]

/-- Settles O8: a configured block's KSBYTE is `ksbyteRegs`, whose STATE is 8 shifts and whose DOUT is the keystream
byte, so its bits are those of `getLsbD_keystreamByte_of_lt`. -/
theorem ksbytePacksEightShiftsLsbFirst : Obligations.KsbytePacksEightShiftsLsbFirst := by
  intro s hc
  refine ⟨s.setRegs (ksbyteRegs s.regs.len.toNat s.regs), exec_of_configured .ksbyte hc, rfl, ?_, ?_⟩
  · exact keystreamNext_eq_shifts s.regs.len.toNat s.regs.taps s.regs.lfsr
  · intro b hb
    exact getLsbD_keystreamByte_of_lt s.regs.len.toNat s.regs.taps s.regs.lfsr hb

end Sys2Proof.Machine
end

section
/-! PROOFS. The family 60_exceptions, O27: which flag an access sets (60_exceptions.md R134). -/

namespace Sys2Proof.Machine

/-! ### `errorOf` on each kind of access -/

/-- The search of the 32 tap indices decides taps_ok (10_state.md R29). -/
theorem any_tap_eq_not_tapsOk (r : Regs) :
    (List.range 32).any (fun t => decide (r.len.toNat ≤ t) && r.taps.getLsbD t) = !tapsOk r := by
  rw [Bool.eq_iff_iff, Bool.not_eq_true', tapsOk_eq_false_iff]
  simp only [List.any_eq_true, List.mem_range, Bool.and_eq_true, decide_eq_true_eq]
  constructor
  · rintro ⟨t, -, ht⟩
    exact ⟨t, ht⟩
  · rintro ⟨t, hle, htap⟩
    exact ⟨t, BitVec.lt_of_getLsbD htap, hle, htap⟩

/-- The error of a stepping command in the words of the preamble: LEN first, TAPS only with LEN legal. -/
theorem steppingError_eq (s : State) :
    steppingError s =
      if lenOk s.nmax s.regs = false then some .len else if tapsOk s.regs = false then some .tap else none := by
  simp only [steppingError, any_tap_eq_not_tapsOk, lenOk_eq_false_iff, Bool.not_eq_true']

theorem errorOf_of_illegal {a : BusAccess} (h : AccessIllegal a) (s : State) : errorOf s a = some .acc :=
  if_pos h

/-- A legal access that does not run a command has no error. -/
theorem errorOf_of_no_command {a : BusAccess} {r : Reg} (ht : accessTarget a = some r)
    (hr : a.kind = .read ∨ r ≠ .cmd) (s : State) : errorOf s a = none := by
  obtain ⟨hlegal, hoff⟩ := (accessTarget_eq_some_iff a r).1 ht
  have hno : ¬ (a.kind = .write ∧ a.off.val = 0x04) := by
    rintro ⟨hk, ho⟩
    rcases hr with hr | hr
    · rw [hk] at hr
      cases hr
    · refine hr (Option.some.inj ((regAt_regOffset r).symm.trans ?_))
      rw [← hoff]
      exact (regAt_eq_some_iff a.off .cmd).2 (Fin.ext ho)
  rw [errorOf, if_neg hlegal, if_neg hno]

/-- A legal write of CMD is judged by its word alone. -/
theorem errorOf_cmd_of_error {a : BusAccess} {why : IllegalCommand} (ht : accessTarget a = some .cmd)
    (hk : a.kind = .write) (hw : decode a.wdata = .error why) (s : State) : errorOf s a = some .cmd := by
  obtain ⟨hlegal, hoff⟩ := (accessTarget_eq_some_iff a .cmd).1 ht
  rw [errorOf, if_neg hlegal, if_pos ⟨hk, congrArg Fin.val hoff⟩, hw]

theorem errorOf_cmd_of_ok {a : BusAccess} {i : Instr} (ht : accessTarget a = some .cmd)
    (hk : a.kind = .write) (hw : decode a.wdata = .ok i) (s : State) :
    errorOf s a = if isStepping i = true then steppingError s else none := by
  obtain ⟨hlegal, hoff⟩ := (accessTarget_eq_some_iff a .cmd).1 ht
  rw [errorOf, if_neg hlegal, if_pos ⟨hk, congrArg Fin.val hoff⟩, hw]
  cases i <;> rfl

/-- The error of an access is read off NMAX and the registers. -/
@[simp] theorem errorOf_withInputs (s : State) (es : List HostEvent) (a : BusAccess) :
    errorOf (s.withInputs es) a = errorOf s a := rfl

/-! ### The registers after an access, by its error -/

/-- The registers after an access in `s`, given the error that applied: recorded and nothing else changed, or, with no
error, no flag set that was not set before. -/
def Records (s t : State) : Option ErrKind → Prop
  | some k => t.regs = (raiseError k s).regs
  | none => ∀ j, t.regs.status.getLsbD j = true → s.regs.status.getLsbD j = true

/-- The answer to the host is no register. -/
@[simp] theorem records_respond (s t : State) (r : BusResponse) (e : Option ErrKind) :
    Records s (t.respond r) e ↔ Records s t e := by
  cases e <;> rfl

theorem records_none_of_status_eq {s t : State} (h : t.regs.status = s.regs.status) : Records s t none := by
  intro j hj
  rwa [← h]

/-- Clearing flags sets none (40_config.md R89). -/
theorem records_none_writeStatus (v : Word) (s : State) : Records s (writeStatus v s) none := by
  intro j hj
  rw [writeStatus_status, clearFlags, BitVec.getLsbD_and, Bool.and_eq_true] at hj
  exact hj.1

theorem exec_records {i : Instr} {s t : State} (h : exec i s = .next t) :
    Records s t (if isStepping i = true then steppingError s else none) := by
  rcases exec_cases i s with ⟨rfl, he⟩ | ⟨hi, ⟨hlen, htaps⟩, he⟩ | ⟨hi, hlen, he⟩ | ⟨hi, hlen, htaps, he⟩
  all_goals
    rw [he] at h
    cases h
  · exact records_none_of_status_eq rfl
  · simp only [hi, steppingError_eq, hlen, htaps]
    exact records_none_of_status_eq (commandRegs_status _ _ _)
  · simp only [hi, steppingError_eq, hlen]
    rfl
  · simp only [hi, steppingError_eq, hlen, htaps]
    rfl

theorem writeCmd_records {a : BusAccess} {s t : State} (ht : accessTarget a = some .cmd) (hk : a.kind = .write)
    (h : writeCmd a.wdata s = .next t) : Records s t (errorOf s a) := by
  rcases writeCmd_cases a.wdata s with ⟨i, hw, he⟩ | ⟨why, hw, he⟩
  · rw [errorOf_cmd_of_ok ht hk hw]
    exact exec_records (he.symm.trans h)
  · rw [he] at h
    cases h
    rw [errorOf_cmd_of_error ht hk hw]
    rfl

/-- A write of a register other than CMD, and not read-only, sets no flag. -/
theorem writeReg_records_none {r : Reg} {v : Word} {s t : State} (hc : r ≠ .cmd) (hi : r ≠ .id) (hd : r ≠ .dout)
    (h : writeReg r v s = .next t) : Records s t none := by
  cases r with
  | cmd => exact absurd rfl hc
  | id => exact absurd rfl hi
  | dout => exact absurd rfl hd
  | status => cases h; exact records_none_writeStatus v s
  | len => cases h; exact records_none_of_status_eq rfl
  | taps => cases h; exact records_none_of_status_eq rfl
  | state => cases h; exact records_none_of_status_eq rfl

/-- An access to a running block records its error, whichever comes first in R134's order. -/
theorem busAccess_records (a : BusAccess) (s : State) :
    ∃ t, busAccess a s = .next t ∧ Records s t (errorOf s a) := by
  rcases busAccess_cases a s with ⟨ha, he⟩ | ⟨r, ht, hk, he⟩ | ⟨r, u, ht, hk, hi, hd, hu, he⟩
  · refine ⟨_, he, ?_⟩
    rw [errorOf_of_illegal ha]
    rfl
  · refine ⟨_, he, ?_⟩
    rw [errorOf_of_no_command ht (.inl hk)]
    exact records_none_of_status_eq rfl
  · refine ⟨_, he, (records_respond s u _ _).2 ?_⟩
    by_cases hc : r = .cmd
    · subst hc
      exact writeCmd_records ht hk hu
    · rw [errorOf_of_no_command ht (.inr hc)]
      exact writeReg_records_none hc hi hd hu

/-- An error's flag is the STATUS bit of its code (60_exceptions.md R131, R132). -/
theorem raiseError_regs_eq (k : ErrKind) (s : State) :
    (raiseError k s).regs = { s.regs with status := s.regs.status ||| BitVec.ofNat 4 (2 ^ errCode k) } := by
  cases k <;> rfl

/-- Settles O27: `busAccess_records` with the two cases of `Records` read out. -/
theorem oneErrorPerAccessInOrder : Obligations.OneErrorPerAccessInOrder := by
  intro s a rest hp hin
  obtain ⟨t, hstep, hrec⟩ := busAccess_records a (s.withInputs rest)
  rw [errorOf_withInputs] at hrec
  refine ⟨t, (step_access hp hin).trans hstep, ?_, ?_⟩
  · intro k hk
    rw [hk] at hrec
    exact hrec.trans (raiseError_regs_eq k _)
  · intro hnone j _ hj
    rw [hnone] at hrec
    exact hrec j hj

end Sys2Proof.Machine
end

section
/-! PROOFS. The family 60_exceptions, O35: no operation looks at the flags (60_exceptions.md R135). -/

namespace Sys2Proof.Machine

/-- The machine with other flags in STATUS. -/
def State.withStatus (s : State) (f : BitVec 4) : State := s.setRegs { s.regs with status := f }

/-- An operation that the flags do not block: from other flags it does the same, but for STATUS. -/
def BlindToStatus (act : State → Host.Outcome State Fault Refusal) : Prop :=
  ∀ ⦃s t : State⦄ (f : BitVec 4), act s = .next t → ∃ g, act (s.withStatus f) = .next (t.withStatus g)

/-! ### Commands and writes -/

/-- The checks of a stepping command read LEN and TAPS only (10_state.md R29). -/
theorem State.Configured.withStatus {s : State} (h : s.Configured) (f : BitVec 4) : (s.withStatus f).Configured := h

theorem commandRegs_withStatus (i : Instr) (n : Nat) (r : Regs) (f : BitVec 4) :
    commandRegs i n { r with status := f } = { commandRegs i n r with status := f } := by
  cases i <;> rfl

theorem exec_blindToStatus (i : Instr) : BlindToStatus (exec i) := by
  intro s t f h
  rcases exec_cases i s with ⟨rfl, he⟩ | ⟨-, hc, he⟩ | ⟨hi, hlen, he⟩ | ⟨hi, hlen, htaps, he⟩
  all_goals
    rw [he] at h
    cases h
  · exact ⟨f, rfl⟩
  · refine ⟨f, (exec_of_configured i (hc.withStatus f)).trans ?_⟩
    exact congrArg (fun r => Host.Outcome.next (s.setRegs r)) (commandRegs_withStatus i _ s.regs f)
  · exact ⟨raiseFlag .len f, (exec_stepping i hi _).trans (stepping_of_not_lenOk _ hlen)⟩
  · exact ⟨raiseFlag .tap f, (exec_stepping i hi _).trans (stepping_of_not_tapsOk _ hlen htaps)⟩

theorem writeCmd_blindToStatus (w : Word) : BlindToStatus (writeCmd w) := by
  intro s t f h
  cases hw : decode w with
  | ok i =>
    simp only [writeCmd, hw] at h ⊢
    exact exec_blindToStatus i f h
  | error why =>
    rw [writeCmd_of_error hw] at h ⊢
    cases h
    exact ⟨raiseFlag .cmd f, rfl⟩

theorem writeReg_blindToStatus (r : Reg) (v : Word) : BlindToStatus (writeReg r v) := by
  intro s t f h
  cases r with
  | cmd => exact writeCmd_blindToStatus v f h
  | status => cases h; exact ⟨clearFlags f v, rfl⟩
  | len => cases h; exact ⟨f, rfl⟩
  | taps => cases h; exact ⟨f, rfl⟩
  | state => cases h; exact ⟨f, rfl⟩
  | id => cases h; exact ⟨raiseFlag .acc f, rfl⟩
  | dout => cases h; exact ⟨raiseFlag .acc f, rfl⟩

/-! ### Accesses and steps -/

theorem readReg_withStatus {r : Reg} (hr : r ≠ .status) (s : State) (f : BitVec 4) :
    readReg r (s.withStatus f) = readReg r s := by
  cases r with
  | status => exact absurd rfl hr
  | id => rfl
  | cmd => rfl
  | len => rfl
  | taps => rfl
  | state => rfl
  | dout => rfl

/-- Only the answer to a read of STATUS shows the flags. -/
theorem busAccess_withStatus {a : BusAccess} {s t : State} (f : BitVec 4) (h : busAccess a s = .next t) :
    ∃ g os, busAccess a (s.withStatus f) = .next { t.withStatus g with outputs := os }
      ∧ (a.kind = .write ∨ a.off.val ≠ 0x08 → os = t.outputs) := by
  rcases busAccess_cases a s with ⟨ha, he⟩ | ⟨r, ht, hk, he⟩ | ⟨r, u, ht, hk, -, -, hu, he⟩
  all_goals
    rw [he] at h
    cases h
  · exact ⟨raiseFlag .acc f, _, busAccess_of_illegal ha _, fun _ => rfl⟩
  · refine ⟨f, _, busAccess_read ht hk _, fun hshown => ?_⟩
    have hr : r ≠ .status := by
      rintro rfl
      have hoff : a.off.val = 0x08 := congrArg Fin.val ((accessTarget_eq_some_iff a .status).1 ht).2
      simp [hk, hoff] at hshown
    rw [readReg_withStatus hr]
    rfl
  · obtain ⟨g, hg⟩ := writeReg_blindToStatus r a.wdata f hu
    refine ⟨g, _, ?_, fun _ => rfl⟩
    rw [busAccess_write ht hk, hg]
    rfl

theorem State.releaseReset_withStatus (s : State) (f : BitVec 4) :
    (s.withStatus f).releaseReset = s.releaseReset.withStatus f := by
  cases hp : s.phase <;> simp [State.releaseReset, State.withStatus, State.setRegs, hp]

/-- A step from other flags: the same but for STATUS, and for the answer to a read of STATUS. -/
theorem step_withStatus {s t : State} (f : BitVec 4) (h : step s = .next t) :
    ∃ g os, step (s.withStatus f) = .next { t.withStatus g with outputs := os }
      ∧ ((∀ a rest, s.inputs = .access a :: rest → a.kind = .write ∨ a.off.val ≠ 0x08) → os = t.outputs) := by
  have hevent : ∀ {e rest}, s.inputs = e :: rest →
      step (s.withStatus f) = handleEvent e ((s.withInputs rest).withStatus f) := fun hin =>
    step_event (s := s.withStatus f) hin
  rcases step_cases h with ⟨hin, rfl⟩ | ⟨a, rest, hin, hp, ha⟩ | ⟨rest, hin, rfl⟩ | ⟨rest, hin, rfl⟩
    | ⟨w, rest, hin, hp, rfl⟩ | ⟨rest, hin, rfl⟩
  · exact ⟨f, _, step_idle hin, fun _ => rfl⟩
  · obtain ⟨g, os, hg, hos⟩ := busAccess_withStatus f ha
    exact ⟨g, os, (step_access (s := s.withStatus f) hp hin).trans hg, fun hshown => hos (hshown a rest hin)⟩
  · exact ⟨Regs.reset.status, _, hevent hin, fun _ => rfl⟩
  · refine ⟨f, _, (hevent hin).trans ?_, fun _ => rfl⟩
    rw [handleEvent, State.releaseReset_withStatus]
    rfl
  · refine ⟨Regs.reset.status, _, (hevent hin).trans ?_, fun _ => rfl⟩
    simp only [handleEvent, whenRunning, State.withStatus, State.setRegs_phase, State.withInputs_phase, hp]
    rfl
  · exact ⟨(unresetRegs s.nmax s.draws).status, _, hevent hin, fun _ => rfl⟩

/-- Settles O35: the fields of the state that `step_withStatus` gives. -/
theorem flagsBlockNothing : Obligations.FlagsBlockNothing := by
  intro s t flags h
  obtain ⟨g, os, hstep, hos⟩ := step_withStatus flags h
  exact ⟨_, hstep, rfl, rfl, rfl, rfl, rfl, hos⟩

end Sys2Proof.Machine
end

section
/-! PROOFS. The family 70_reset_and_hazards: the two events of a reset, and stepping commands on a block that still has
the reset values (70_reset_and_hazards.md R150). -/

namespace Sys2Proof.Machine

theorem step_assertReset {s : State} {rest : List HostEvent} (hin : s.inputs = .assertReset :: rest) :
    step s = .next (s.withInputs rest).assertReset :=
  step_event hin

theorem step_releaseReset {s : State} {rest : List HostEvent} (hin : s.inputs = .releaseReset :: rest) :
    step s = .next (s.withInputs rest).releaseReset :=
  step_event hin

/-- ID is read off NMAX alone (10_state.md R22). -/
theorem readReg_id_congr {s t : State} (h : t.nmax = s.nmax) : readReg .id t = readReg .id s :=
  congrArg idWord h

/-- LEN = 0 fails len_ok on every build (10_state.md R29, 70_reset_and_hazards.md R150). -/
theorem lenOk_regs_reset (nmax : NMax) : lenOk nmax Regs.reset = false :=
  (lenOk_eq_false_iff nmax Regs.reset).2 (.inl rfl)

/-- A stepping command on the reset values sets ERR_LEN, the only flag then set (70_reset_and_hazards.md R150). -/
theorem exec_stepping_of_regs_reset {i : Instr} {s : State} (hi : isStepping i = true) (hr : s.regs = Regs.reset) :
    exec i s = .next { s with regs := { s.regs with status := 0b0010#4 } } := by
  have hlen : lenOk s.nmax s.regs = false := by rw [hr, lenOk_regs_reset]
  have hstatus : s.regs.status ||| 0b0010#4 = 0b0010#4 := by rw [hr]; rfl
  rw [exec_stepping i hi, stepping_of_not_lenOk _ hlen, raiseError_errLen_eq, hstatus]

/-- Settles O38: the assertion writes the reset values and the release keeps the registers, so LEN is 0 after both and a
stepping command fails len_ok. -/
theorem resetGivesTheResetValues : Obligations.ResetGivesTheResetValues := by
  intro s rest hin
  have hasserted := step_assertReset hin
  have hreleased := step_releaseReset
    (State.assertReset_inputs (s.withInputs (.releaseReset :: rest)))
  refine ⟨_, _, hasserted, hreleased, rfl, ?_, ?_, ?_, rfl, ?_, fun i hi => ?_⟩
  · rw [State.releaseReset_regs, State.withInputs_regs]
  · exact readReg_id_congr rfl
  · exact readReg_id_congr (by simp)
  · simp
  · exact exec_stepping_of_regs_reset hi (by simp)

end Sys2Proof.Machine
end

section
/-! PROOFS. The family other: the words the decoder reads, against the encoder and the rows of the table
(30_encoding.md R70, R71, R74). -/

namespace Sys2Proof

/-! ### Decode and encode -/

/-- The row of a command without operand holds that command's word alone (30_encoding.md R74). -/
theorem matchesWord_exact_iff_eq (op : BitVec 4) (w : Word) :
    (CommandRow.mk (commandWord op 0#8) (BitVec.allOnes 32)).matchesWord w = true ↔ w = commandWord op 0#8 := by
  rw [CommandRow.matchesWord, beq_iff_eq, BitVec.and_allOnes]

/-- CIPHER's row leaves DATA open, and only DATA. -/
theorem matchesWord_rowCipher_iff_eq (w : Word) :
    rowCipher.matchesWord w = true ↔ w = encode (.cipher (dataField w)) := by
  rw [matchesWord_rowCipher_iff, word_eq_iff]
  simp [encode]

@[simp] theorem dataField_encode_cipher (d : Byte) : dataField (encode (.cipher d)) = d :=
  dataField_commandWord 0x3#4 d

/-- The decoder reads back what the encoder wrote, with every data byte (30_encoding.md R70, R71). -/
theorem decode_encode (i : Instr) : decode (encode i) = .ok i := by
  cases i with
  | nop => decide
  | step => decide
  | ksbyte => decide
  | cipher d =>
    have hcipher : rowCipher.matchesWord (encode (.cipher d)) = true := by simp [matchesWord_rowCipher_iff_eq]
    have hop : opField (encode (.cipher d)) = 0x3#4 := opField_commandWord 0x3#4 d
    simp [decode, matchesWord_rowNop_iff, matchesWord_rowStep_iff, matchesWord_rowKsbyte_iff, hop, hcipher]

/-- A word that decodes to a command is its word: a row leaves no bit open but DATA (30_encoding.md R74). -/
theorem eq_encode_of_decode {w : Word} {i : Instr} (h : decode w = .ok i) : w = encode i := by
  unfold decode at h
  split_ifs at h with hnop hstep hksbyte hcipher <;> cases h
  · exact (matchesWord_exact_iff_eq 0x0#4 w).1 hnop
  · exact (matchesWord_exact_iff_eq 0x1#4 w).1 hstep
  · exact (matchesWord_exact_iff_eq 0x2#4 w).1 hksbyte
  · exact (matchesWord_rowCipher_iff_eq w).1 hcipher

/-- Settles O2: one direction by the rows, the other by running the decoder on the encoder's word. -/
theorem decodeReadsExactlyTheEncodedWord : Obligations.DecodeReadsExactlyTheEncodedWord := by
  intro w i
  constructor
  · exact eq_encode_of_decode
  · rintro rfl
    exact decode_encode i

/-- The words of two commands differ. -/
theorem encode_injective : Function.Injective encode := by
  intro i j h
  have hdecode := decode_encode i
  rw [h, decode_encode j] at hdecode
  exact (Except.ok.inj hdecode).symm

/-! ### The rows and the count of legal words -/

/-- A row's match fixes OP (30_encoding.md R74). -/
theorem opField_of_matchesWord {r : CommandRow} {w : Word} (hr : r ∈ [rowNop, rowStep, rowKsbyte, rowCipher])
    (h : r.matchesWord w = true) : opField w = opField r.pattern := by
  simp only [List.mem_cons, List.not_mem_nil, or_false] at hr
  rcases hr with rfl | rfl | rfl | rfl
  · exact ((matchesWord_rowNop_iff w).1 h).1
  · exact ((matchesWord_rowStep_iff w).1 h).1
  · exact ((matchesWord_rowKsbyte_iff w).1 h).1
  · exact ((matchesWord_rowCipher_iff w).1 h).1

/-- The four rows have four operation codes. -/
theorem row_eq_of_opField_eq :
    ∀ r ∈ [rowNop, rowStep, rowKsbyte, rowCipher], ∀ q ∈ [rowNop, rowStep, rowKsbyte, rowCipher],
      opField r.pattern = opField q.pattern → r = q := by decide

/-- Every command, once. -/
def allCommands : List Instr :=
  [.nop, .step, .ksbyte] ++ (List.finRange 256).map fun k => .cipher (BitVec.ofFin k)

theorem mem_allCommands (i : Instr) : i ∈ allCommands := by
  cases i with
  | nop => simp [allCommands]
  | step => simp [allCommands]
  | ksbyte => simp [allCommands]
  | cipher d => exact List.mem_append_right _ (List.mem_map.2 ⟨d.toFin, List.mem_finRange _, rfl⟩)

theorem nodup_allCommands : allCommands.Nodup := by
  have hinj : Function.Injective fun k : Fin 256 => Instr.cipher (BitVec.ofFin k) := by
    intro j k h
    simpa using h
  refine List.Nodup.append (by decide) ((List.nodup_finRange 256).map hinj) ?_
  intro i hi hcipher
  obtain ⟨k, -, rfl⟩ := List.mem_map.1 hcipher
  simp at hi

theorem length_allCommands : allCommands.length = 259 := by simp [allCommands]

theorem exists_decode_cipher_iff (w : Word) :
    (∃ d, decode w = .ok (.cipher d)) ↔ rowCipher.matchesWord w = true := by
  rw [matchesWord_rowCipher_iff_eq]
  constructor
  · rintro ⟨d, hd⟩
    rw [eq_encode_of_decode hd, dataField_encode_cipher]
  · intro hw
    exact ⟨dataField w, (decodeReadsExactlyTheEncodedWord w _).2 hw⟩

/-- Settles O3: the decoder reads each row's words (O2 and the rows), the rows differ in OP, and the legal words are the
encodings of the 259 commands. -/
theorem legalWordsAreTheFourRows : Obligations.LegalWordsAreTheFourRows := by
  refine ⟨fun w => ⟨?_, ?_, ?_, ?_, ?_⟩, ?_, allCommands.map encode, ?_, ?_, ?_⟩
  · exact (decodeReadsExactlyTheEncodedWord w _).trans ((matchesWord_exact_iff_eq 0x0#4 w).symm.trans beq_iff_eq)
  · exact (decodeReadsExactlyTheEncodedWord w _).trans ((matchesWord_exact_iff_eq 0x1#4 w).symm.trans beq_iff_eq)
  · exact (decodeReadsExactlyTheEncodedWord w _).trans ((matchesWord_exact_iff_eq 0x2#4 w).symm.trans beq_iff_eq)
  · exact (exists_decode_cipher_iff w).trans beq_iff_eq
  · intro d hd b hb
    have hdata : dataField w = d := by rw [eq_encode_of_decode hd, dataField_encode_cipher]
    rw [← hdata, dataField, BitVec.getLsbD_extractLsb', decide_eq_true hb, Bool.true_and]
  · intro w r hr q hq hrw hqw
    exact row_eq_of_opField_eq r hr q hq ((opField_of_matchesWord hr hrw).symm.trans (opField_of_matchesWord hq hqw))
  · exact nodup_allCommands.map encode_injective
  · rw [List.length_map, length_allCommands]
  · intro w
    simp only [List.mem_map, decodeReadsExactlyTheEncodedWord w, mem_allCommands, true_and, eq_comm]

/-- Settles O1: the decoder run on each of the fifteen words. -/
theorem wordsDecodeAsTheirVectorsSay : Obligations.WordsDecodeAsTheirVectorsSay := by
  unfold Obligations.WordsDecodeAsTheirVectorsSay
  decide

end Sys2Proof
end

section
/-! PROOFS. The family other: what every access and every step keeps, and what it answers (10_state.md R22, R26, R27;
20_memory.md R53, R66; 70_reset_and_hazards.md R150 to R153). -/

namespace Sys2Proof.Machine

/-! ### Every access is an update of the registers and one answer -/

/-- A command updates the registers and nothing else (10_state.md R31). -/
theorem exec_eq_setRegs {i : Instr} {s t : State} (h : exec i s = .next t) : t = s.setRegs t.regs := by
  rcases exec_cases i s with ⟨-, he⟩ | ⟨-, -, he⟩ | ⟨-, -, he⟩ | ⟨-, -, -, he⟩
  all_goals
    rw [he] at h
    cases h
    rfl

/-- So does the write action of a register (20_memory.md R53). -/
theorem writeReg_eq_setRegs {r : Reg} {v : Word} {s t : State} (h : writeReg r v s = .next t) :
    t = s.setRegs t.regs := by
  cases r with
  | cmd =>
    rcases writeCmd_cases v s with ⟨i, -, he⟩ | ⟨why, -, he⟩
    · exact exec_eq_setRegs (he.symm.trans h)
    · cases he.symm.trans h
      rfl
  | status => cases h; rfl
  | len => cases h; rfl
  | taps => cases h; rfl
  | state => cases h; rfl
  | id => cases h; rfl
  | dout => cases h; rfl

/-- The answer fits the access: of its kind, and OKAY exactly when the access is legal (20_memory.md R51, R55). -/
def Answers (a : BusAccess) (r : BusResponse) : Prop :=
  (a.kind = .write → r = .write (if AccessIllegal a then .error else .okay))
    ∧ (a.kind = .read → ∃ v, r = .read (if AccessIllegal a then .error else .okay) v)

/-- An access to a running block is answered at once (20_memory.md R52, R53, R55). -/
theorem busAccess_answers (a : BusAccess) (s : State) :
    ∃ regs r, busAccess a s = .next ((s.setRegs regs).respond r) ∧ Answers a r := by
  rcases busAccess_cases a s with ⟨ha, he⟩ | ⟨r, ht, hk, he⟩ | ⟨r, u, ht, hk, -, -, hu, he⟩
  · refine ⟨_, _, he, ?_, ?_⟩
    · intro hk
      rw [if_pos ha, hk]
      rfl
    · intro hk
      rw [if_pos ha, hk]
      exact ⟨0#32, rfl⟩
  · have hlegal := ((accessTarget_eq_some_iff a r).1 ht).1
    refine ⟨s.regs, _, he, ?_, fun _ => ⟨_, by rw [if_neg hlegal]⟩⟩
    intro hw
    cases hk.symm.trans hw
  · have hlegal := ((accessTarget_eq_some_iff a r).1 ht).1
    rw [writeReg_eq_setRegs hu] at he
    refine ⟨_, _, he, fun _ => by rw [if_neg hlegal], ?_⟩
    intro hr
    cases hk.symm.trans hr

/-- Settles O34: the register update and the answer of `busAccess_answers`. -/
theorem everyAccessIsAnsweredOnce : Obligations.EveryAccessIsAnsweredOnce := by
  intro s a rest hp hin
  obtain ⟨regs, r, he, hwrite, hread⟩ := busAccess_answers a (s.withInputs rest)
  exact ⟨_, r, (step_access hp hin).trans he, rfl, rfl, hp, hwrite, hread⟩

/-! ### The hardwired zeros -/

/-- A word without bits from n up has none from a later index up. -/
theorem lowBits_eq_self_of_le {m n : Nat} {w : Word} (hnm : n ≤ m) (h : lowBits n w = w) : lowBits m w = w :=
  (lowBits_eq_self_iff m w).2 fun i hi => (lowBits_eq_self_iff n w).1 h i (Nat.le_trans hnm hi)

/-- Shifts of n bits keep the zeros from any index m of n or more up (41_lfsr.md R101). -/
theorem lowBits_shifts_of_le {m n : Nat} (taps : Word) (h1 : 1 ≤ n) (h32 : n ≤ 32) (hnm : n ≤ m) (k : Nat)
    {lfsr : Word} (h : lowBits m lfsr = lfsr) : lowBits m (shifts n taps k lfsr) = shifts n taps k lfsr := by
  cases k with
  | zero => exact h
  | succ k =>
    rw [shifts_succ_last]
    exact lowBits_eq_self_of_le hnm (lowBits_shiftWord n taps _ h1 h32)

/-- The low bits of a word are hardwired already. -/
theorem lowBits_idem (n : Nat) (w : Word) : lowBits n (lowBits n w) = lowBits n w := by
  rw [lowBits_lowBits, Nat.min_self]

theorem exec_hardwired {i : Instr} {s t : State} (hs : s.regs.Hardwired s.nmax) (h : exec i s = .next t) :
    t.regs.Hardwired s.nmax := by
  rcases exec_cases i s with ⟨-, he⟩ | ⟨-, hc, he⟩ | ⟨-, -, he⟩ | ⟨-, -, -, he⟩
  all_goals
    rw [he] at h
    cases h
  · exact hs
  · obtain ⟨hlfsr, htaps⟩ := hs
    refine ⟨?_, ?_⟩
    · rw [State.setRegs_regs, commandRegs_lfsr]
      exact lowBits_shifts_of_le _ hc.one_le hc.le_32 hc.le_nmax _ hlfsr
    · rw [State.setRegs_regs, commandRegs_taps]
      exact htaps
  · exact hs
  · exact hs

theorem writeReg_hardwired {r : Reg} {v : Word} {s t : State} (hs : s.regs.Hardwired s.nmax)
    (h : writeReg r v s = .next t) : t.regs.Hardwired s.nmax := by
  cases r with
  | cmd =>
    rcases writeCmd_cases v s with ⟨i, -, he⟩ | ⟨why, -, he⟩
    · exact exec_hardwired hs (he.symm.trans h)
    · cases he.symm.trans h
      exact hs
  | taps => cases h; exact ⟨hs.1, lowBits_idem _ v⟩
  | state => cases h; exact ⟨lowBits_idem _ v, hs.2⟩
  | status => cases h; exact hs
  | len => cases h; exact hs
  | id => cases h; exact hs
  | dout => cases h; exact hs

theorem busAccess_hardwired {a : BusAccess} {s t : State} (hs : s.regs.Hardwired s.nmax)
    (h : busAccess a s = .next t) : t.regs.Hardwired s.nmax := by
  rcases busAccess_cases a s with ⟨-, he⟩ | ⟨r, -, -, he⟩ | ⟨r, u, -, -, -, -, hu, he⟩
  all_goals
    rw [he] at h
    cases h
  · exact hs
  · exact hs
  · exact writeReg_hardwired (t := u) hs hu

theorem hardwired_reset (nmax : NMax) : Regs.reset.Hardwired nmax :=
  ⟨lowBits_zero_word _, lowBits_zero_word _⟩

theorem hardwired_unresetRegs (nmax : NMax) (draw : Nat) : (unresetRegs nmax draw).Hardwired nmax :=
  ⟨lowBits_idem _ _, lowBits_idem _ _⟩

/-- A running block goes on running through an access, on the same build. -/
theorem busAccess_phase_nmax {a : BusAccess} {s t : State} (h : busAccess a s = .next t) :
    t.phase = s.phase ∧ t.nmax = s.nmax := by
  obtain ⟨regs, r, he, -⟩ := busAccess_answers a s
  cases he.symm.trans h
  exact ⟨rfl, rfl⟩

/-- No step changes the build (10_state.md R22, 00_scope.md R6). -/
theorem step_nmax {s t : State} (h : step s = .next t) : t.nmax = s.nmax := by
  rcases step_cases h with ⟨-, rfl⟩ | ⟨a, rest, -, -, ha⟩ | ⟨rest, -, rfl⟩ | ⟨rest, -, rfl⟩ | ⟨w, rest, -, -, rfl⟩
    | ⟨rest, -, rfl⟩
  · rfl
  · exact (busAccess_phase_nmax ha).2
  · rfl
  · exact State.releaseReset_nmax _
  · rfl
  · rfl

theorem step_hardwired {s t : State} (hs : s.regs.Hardwired s.nmax) (h : step s = .next t) :
    t.regs.Hardwired s.nmax := by
  rcases step_cases h with ⟨-, rfl⟩ | ⟨a, rest, -, -, ha⟩ | ⟨rest, -, rfl⟩ | ⟨rest, -, rfl⟩ | ⟨w, rest, -, -, rfl⟩
    | ⟨rest, -, rfl⟩
  · exact hs
  · exact busAccess_hardwired (s := s.withInputs rest) hs ha
  · exact hardwired_reset s.nmax
  · rw [State.releaseReset_regs]
    exact hs
  · exact hardwired_reset s.nmax
  · exact hardwired_unresetRegs s.nmax s.draws

/-- Only an asserted reset, alone or in a stalled command, brings a block into reset (70_reset_and_hazards.md R150,
R153). -/
theorem step_regs_of_inReset {s t : State} (hs : s.phase = .inReset → s.regs = Regs.reset) (h : step s = .next t)
    (ht : t.phase = .inReset) : t.regs = Regs.reset := by
  rcases step_cases h with ⟨-, rfl⟩ | ⟨a, rest, -, hp, ha⟩ | ⟨rest, -, rfl⟩ | ⟨rest, -, rfl⟩ | ⟨w, rest, -, -, rfl⟩
    | ⟨rest, -, rfl⟩
  · exact hs ht
  · rw [(busAccess_phase_nmax ha).1, State.withInputs_phase, hp] at ht
    cases ht
  · rfl
  · rw [State.releaseReset_phase] at ht
    split_ifs at ht with hreset
    exact absurd ht hreset
  · rfl
  · cases ht

/-- Settles O43: the hardwired zeros and the reset values, each kept by every kind of step. -/
theorem everyStepKeepsTheInvariant : Obligations.EveryStepKeepsTheInvariant := by
  rintro s t ⟨hhard, hreset⟩ h
  refine ⟨?_, step_regs_of_inReset hreset h⟩
  rw [step_nmax h]
  exact step_hardwired hhard h

theorem idWord_toNat (nmax : NMax) : (idWord nmax).toNat = 0x4C460100 + nmax.val := by
  have hfit : nmax.val < 2 ^ 8 := Nat.lt_of_le_of_lt nmax.le (by decide)
  rw [idWord, BitVec.toNat_append, BitVec.toNat_ofNat, Nat.mod_eq_of_lt hfit, ← Nat.shiftLeft_add_eq_or_of_lt hfit]
  rfl

/-- Settles O44: ID is read off NMAX, which no step changes. -/
theorem idIsConstant : Obligations.IdIsConstant := by
  intro s t h
  exact ⟨step_nmax h, readReg_id_congr (step_nmax h), idWord_toNat s.nmax⟩

/-! ### A host that keeps its duties -/

/-- A reset during a stalled CMD write of a running block (70_reset_and_hazards.md R153). -/
theorem step_resetDuringCommand {s : State} {w : Word} {rest : List HostEvent} (hp : s.phase = .running)
    (hin : s.inputs = .resetDuringCommand w :: rest) : step s = .next (s.withInputs rest).abandonCommand := by
  rw [step_event hin]
  simp [handleEvent, whenRunning, hp]

theorem step_powerLost {s : State} {rest : List HostEvent} (hin : s.inputs = .powerLost :: rest) :
    step s = .next (s.withInputs rest).losePower :=
  step_event hin

/-- An event the duties allow is met, and the block is then in the phase the duties reckon with (20_memory.md R66). -/
theorem step_of_phaseAfter {s : State} {e : HostEvent} {rest : List HostEvent} {q : Phase}
    (hin : s.inputs = e :: rest) (hq : phaseAfter s.phase e = some q) :
    ∃ t, step s = .next t ∧ t.phase = q ∧ t.inputs = rest ∧ t.nmax = s.nmax := by
  cases e with
  | access a =>
    cases hp : s.phase with
    | running =>
      rw [hp] at hq
      cases hq
      obtain ⟨regs, r, he, -⟩ := busAccess_answers a (s.withInputs rest)
      exact ⟨_, (step_access hp hin).trans he, hp, rfl, rfl⟩
    | inReset => rw [hp] at hq; cases hq
    | unreset => rw [hp] at hq; cases hq
  | assertReset =>
    have hphase : phaseAfter s.phase .assertReset = some .inReset := by cases s.phase <;> rfl
    cases hphase.symm.trans hq
    exact ⟨_, step_assertReset hin, rfl, rfl, rfl⟩
  | releaseReset =>
    refine ⟨_, step_releaseReset hin, ?_, State.releaseReset_inputs _, State.releaseReset_nmax _⟩
    rw [State.releaseReset_phase, State.withInputs_phase]
    cases hp : s.phase <;> rw [hp] at hq <;> cases hq <;> rfl
  | resetDuringCommand w =>
    cases hp : s.phase with
    | running =>
      rw [hp] at hq
      cases hq
      exact ⟨_, step_resetDuringCommand hp hin, rfl, rfl, rfl⟩
    | inReset => rw [hp] at hq; cases hq
    | unreset => rw [hp] at hq; cases hq
  | powerLost =>
    have hphase : phaseAfter s.phase .powerLost = some .unreset := by cases s.phase <;> rfl
    cases hphase.symm.trans hq
    exact ⟨_, step_powerLost hin, rfl, rfl, rfl⟩

theorem wellDriven_cons {p : Phase} {e : HostEvent} {es : List HostEvent} (h : wellDriven p (e :: es) = true) :
    ∃ q, phaseAfter p e = some q ∧ wellDriven q es = true := by
  cases hq : phaseAfter p e with
  | none => simp [wellDriven, hq] at h
  | some q => exact ⟨q, rfl, by simpa [wellDriven, hq] using h⟩

/-- One step for a host that keeps its duties: an event is taken off and the duties are kept by the rest. -/
theorem step_of_wellDriven {s : State} (h : wellDriven s.phase s.inputs = true) :
    ∃ t, step s = .next t ∧ t.inputs = s.inputs.drop 1 ∧ t.nmax = s.nmax ∧ wellDriven t.phase t.inputs = true := by
  cases hin : s.inputs with
  | nil => exact ⟨s, step_idle hin, hin, rfl, h⟩
  | cons e rest =>
    rw [hin] at h
    obtain ⟨q, hq, hrest⟩ := wellDriven_cons h
    obtain ⟨t, ht, rfl, rfl, hn⟩ := step_of_phaseAfter hin hq
    exact ⟨t, ht, rfl, hn, hrest⟩

/-- Settles O45: induction on the number of steps, each by `step_of_wellDriven`. -/
theorem wellDrivenRunsNeverStop : Obligations.WellDrivenRunsNeverStop := by
  intro s k h
  induction k generalizing s with
  | zero => exact ⟨s, rfl, rfl, rfl, h⟩
  | succ k ih =>
    obtain ⟨u, hu, huin, hun, hudriven⟩ := step_of_wellDriven h
    obtain ⟨t, ht, htin, htn, htdriven⟩ := ih u hudriven
    refine ⟨t, (run_succ_of_step hu k).trans ht, ?_, htn.trans hun, htdriven⟩
    rw [htin, huin, List.drop_drop, Nat.add_comm]

/-! ### Phases other than running, and no event -/

/-- Settles O42: an idle step answers the same state, which is idle again. -/
theorem idleBlockStaysAsItIs : Obligations.IdleBlockStaysAsItIs := by
  intro s hin k
  induction k with
  | zero => rfl
  | succ k ih => rw [run_succ_of_step (step_idle hin), ih]

/-- Settles O39: the values of `Regs.reset`, and the invariant from its zeros. -/
theorem resetStateIsAsTheTableSays : Obligations.ResetStateIsAsTheTableSays :=
  ⟨rfl, rfl, fun n => ⟨rfl, rfl, hardwired_reset n, fun _ => rfl⟩⟩

/-- Settles O40: the step is `abandonCommand`, whose answer is the free one or none. -/
theorem resetAbandonsAStalledCommand : Obligations.ResetAbandonsAStalledCommand := by
  intro s w rest hp hin
  refine ⟨_, step_resetDuringCommand hp hin, rfl, rfl, rfl, rfl, ?_⟩
  rw [State.abandonCommand_outputs]
  cases hr : Config.abandonedResponse (s.withInputs rest).draws with
  | none => exact .inl rfl
  | some r => exact .inr ⟨r, rfl⟩

/-- An unreset block leaves that phase only by an asserted reset (70_reset_and_hazards.md R151). -/
theorem step_phase_of_unreset {s t : State} {e : HostEvent} {rest : List HostEvent} (hin : s.inputs = e :: rest)
    (hp : s.phase = .unreset) (he : e ≠ .assertReset) (h : step s = .next t) : t.phase = .unreset := by
  rcases step_cases h with ⟨-, rfl⟩ | ⟨a, _, -, hrun, -⟩ | ⟨_, hassert, -⟩ | ⟨_, -, rfl⟩ | ⟨w, _, -, hrun, -⟩
    | ⟨_, -, rfl⟩
  · exact hp
  · cases hp.symm.trans hrun
  · rw [hin] at hassert
    exact absurd (List.cons.inj hassert).1 he
  · simp [State.releaseReset_phase, hp]
  · cases hp.symm.trans hrun
  · rfl

/-- Settles O41: `whenRunning` refuses by the phase, and only an asserted reset ends the unreset one. -/
theorem accessesOutsideRunningAreRefused : Obligations.AccessesOutsideRunningAreRefused := by
  refine ⟨?_, ?_, ?_⟩
  · intro s a rest hin
    constructor
    · intro hp
      simp [step_event hin, handleEvent, whenRunning, hp]
    · intro hp
      simp [step_event hin, handleEvent, whenRunning, hp]
  · intro s rest hin
    exact ⟨_, step_powerLost hin, rfl⟩
  · intro s t e rest hin hp he h
    exact step_phase_of_unreset hin hp he h

end Sys2Proof.Machine
end

section
/-! PROOFS. The family other: the block as the source's engine. A shift of STATE is a shift of the engine, and what the
commands put into DOUT is the engine's bit stream (40_config.md R93; 41_lfsr.md R100, R101; 42_keystream.md R115 to
R118; log 16). -/

namespace Sys2Proof.Machine

/-! ### The engine by itself -/

/-- What a seed and a tap set that fit satisfy (40_config.md R93). -/
theorem Engine.fits_iff (nmax : NMax) (e : Engine) :
    e.fits nmax = true ↔ 1 ≤ e.state.length ∧ e.state.length ≤ nmax.val ∧ e.taps.Nodup
      ∧ ∀ t ∈ e.taps, t < e.state.length := by
  simp [Engine.fits, and_assoc]

theorem Engine.one_le_of_fits {nmax : NMax} {e : Engine} (h : e.fits nmax = true) : 1 ≤ e.state.length :=
  ((Engine.fits_iff nmax e).1 h).1

theorem Engine.le_nmax_of_fits {nmax : NMax} {e : Engine} (h : e.fits nmax = true) : e.state.length ≤ nmax.val :=
  ((Engine.fits_iff nmax e).1 h).2.1

theorem Engine.le_32_of_fits {nmax : NMax} {e : Engine} (h : e.fits nmax = true) : e.state.length ≤ 32 :=
  Nat.le_trans (Engine.le_nmax_of_fits h) nmax.le

@[simp] theorem Engine.shift_taps (e : Engine) : e.shift.taps = e.taps := rfl

theorem Engine.shift_length {e : Engine} (h1 : 1 ≤ e.state.length) : e.shift.state.length = e.state.length := by
  simp only [Engine.shift, List.length_append, List.length_tail, List.length_singleton, Nat.sub_add_cancel h1]

/-- A shift keeps the length and the taps, so the engine goes on fitting. -/
theorem Engine.fits_shift {nmax : NMax} {e : Engine} (h : e.fits nmax = true) : e.shift.fits nmax = true := by
  rw [Engine.fits_iff, Engine.shift_length (Engine.one_le_of_fits h), Engine.shift_taps]
  exact (Engine.fits_iff nmax e).1 h

theorem Engine.fits_after {nmax : NMax} {e : Engine} (h : e.fits nmax = true) (k : Nat) :
    (e.after k).fits nmax = true := by
  induction k generalizing e with
  | zero => exact h
  | succ k ih => exact ih (Engine.fits_shift h)

@[simp] theorem Engine.after_taps (e : Engine) (k : Nat) : (e.after k).taps = e.taps := by
  induction k generalizing e with
  | zero => rfl
  | succ k ih => exact ih e.shift

theorem Engine.after_length {nmax : NMax} {e : Engine} (h : e.fits nmax = true) (k : Nat) :
    (e.after k).state.length = e.state.length := by
  induction k generalizing e with
  | zero => rfl
  | succ k ih => exact (ih (Engine.fits_shift h)).trans (Engine.shift_length (Engine.one_le_of_fits h))

theorem Engine.after_add (e : Engine) (j k : Nat) : e.after (j + k) = (e.after j).after k := by
  induction j generalizing e with
  | zero => rw [Nat.zero_add]; rfl
  | succ j ih => rw [Nat.succ_add]; exact ih e.shift

@[simp] theorem Engine.generateSequence_length (k : Nat) (e : Engine) : (e.generateSequence k).length = k := by
  induction k generalizing e with
  | zero => rfl
  | succ k ih => rw [Engine.generateSequence, List.length_cons, ih]

/-- Bit i of the stream is the output bit of the engine after i shifts (41_lfsr.md R105). -/
theorem Engine.generateSequence_getD (k i : Nat) (e : Engine) :
    (e.generateSequence k).getD i false = (decide (i < k) && (e.after i).out) := by
  induction k generalizing e i with
  | zero => simp [Engine.generateSequence]
  | succ k ih =>
    cases i with
    | zero => simp [Engine.generateSequence, Engine.after]
    | succ i => simpa [Engine.generateSequence, Engine.after] using ih i e.shift

/-- What is left of the stream after j bits is the stream of the engine after j shifts. -/
theorem Engine.drop_generateSequence (j k : Nat) (e : Engine) :
    (e.generateSequence (j + k)).drop j = (e.after j).generateSequence k := by
  induction j generalizing e with
  | zero => rw [Nat.zero_add]; rfl
  | succ j ih => rw [Nat.succ_add]; exact ih e.shift

theorem Engine.take_generateSequence (j k : Nat) (e : Engine) :
    (e.generateSequence (j + k)).take j = e.generateSequence j := by
  induction j generalizing e with
  | zero => rfl
  | succ j ih =>
    rw [Nat.succ_add]
    simp only [Engine.generateSequence, List.take_succ_cons, ih]

/-! ### A shift of STATE is a shift of the engine -/

/-- A seed that fits a word is the word's bits. -/
theorem getLsbD_packBits_of_le {bits : List Bool} (h : bits.length ≤ 32) (i : Nat) :
    (packBits bits).getLsbD i = bits.getD i false := by
  rw [getLsbD_packBits]
  by_cases hi : i < 32
  · simp [hi]
  · simp [hi, List.getElem?_eq_none (Nat.le_trans h (Nat.not_lt.1 hi))]

theorem lowBits_packBits {n : Nat} {bits : List Bool} (h : bits.length ≤ n) :
    lowBits n (packBits bits) = packBits bits := by
  rw [lowBits_eq_self_iff]
  intro i hi
  simp [getLsbD_packBits, List.getElem?_eq_none (Nat.le_trans h hi)]

theorem lowBits_tapMask {n : Nat} {taps : List Nat} (h : ∀ t ∈ taps, t < n) :
    lowBits n (tapMask taps) = tapMask taps := by
  rw [lowBits_eq_self_iff]
  intro i hi
  have hnot : i ∉ taps := fun hmem => absurd (h i hmem) (Nat.not_lt.2 hi)
  simp [getLsbD_tapMask, hnot]

/-- The parity of a word with one bit that may be 1 is that bit. -/
theorem parityBelow_of_single {v : Word} {t : Nat} (h : ∀ i, i ≠ t → v.getLsbD i = false) (k : Nat) :
    parityBelow k v = (decide (t < k) && v.getLsbD t) := by
  induction k with
  | zero => simp [parityBelow]
  | succ k ih =>
    rw [parityBelow, ih]
    rcases Nat.lt_trichotomy k t with hk | rfl | hk
    · simp [h k (Nat.ne_of_lt hk), Nat.not_lt.2 (Nat.le_of_lt hk), Nat.not_lt.2 (Nat.succ_le_of_lt hk)]
    · simp
    · simp [h k (Nat.ne_of_gt hk), hk, Nat.lt_succ_of_lt hk]

theorem getLsbD_and_tap (w : Word) (t i : Nat) :
    (w &&& (1#32 <<< t)).getLsbD i = (decide (i = t) && w.getLsbD i) := by
  by_cases hi : i < 32
  · rcases Nat.lt_trichotomy i t with h | rfl | h
    · simp [h, Nat.ne_of_lt h]
    · simp [hi]
    · simp [Nat.ne_of_gt h, Nat.not_lt.2 (Nat.le_of_lt h), show ¬ i - t = 0 by omega]
  · simp [BitVec.getLsbD_of_ge w i (Nat.not_lt.1 hi)]

theorem parity_and_tap (w : Word) (t : Nat) : parity (w &&& (1#32 <<< t)) = w.getLsbD t := by
  have hsingle : ∀ i, i ≠ t → (w &&& (1#32 <<< t)).getLsbD i = false := by
    intro i hi
    rw [getLsbD_and_tap, decide_eq_false hi, Bool.false_and]
  rw [parity, parityBelow_of_single hsingle, getLsbD_and_tap, decide_eq_true rfl, Bool.true_and]
  by_cases ht : t < 32
  · simp [ht]
  · simp [BitVec.getLsbD_of_ge w t (Nat.not_lt.1 ht)]

/-- A tap not yet in the mask joins as an XOR (10_state.md R26). -/
theorem and_tapMask_cons {t : Nat} {ts : List Nat} (h : t ∉ ts) (w : Word) :
    w &&& tapMask (t :: ts) = (w &&& (1#32 <<< t)) ^^^ (w &&& tapMask ts) := by
  apply BitVec.eq_of_getLsbD_eq
  intro i hi
  rw [BitVec.getLsbD_xor, getLsbD_and_tap, BitVec.getLsbD_and, BitVec.getLsbD_and, getLsbD_tapMask, getLsbD_tapMask]
  by_cases hit : i = t
  · subst hit
    simp [hi, h]
  · simp [hi, hit]

/-- With no index twice, the parity of the tapped bits is the XOR over the tap list (41_lfsr.md R100). -/
theorem parity_and_tapMask {taps : List Nat} (h : taps.Nodup) (w : Word) :
    parity (w &&& tapMask taps) = taps.foldr (fun t acc => (w.getLsbD t).xor acc) false := by
  induction taps with
  | nil => simp [tapMask, parity_zero]
  | cons t ts ih =>
    obtain ⟨hnot, hnodup⟩ := List.nodup_cons.1 h
    rw [and_tapMask_cons hnot, parity_xor, parity_and_tap, ih hnodup, List.foldr_cons]

/-- The feedback bit of the packed seed is the engine's (41_lfsr.md R100). -/
theorem feedback_packBits {nmax : NMax} {e : Engine} (h : e.fits nmax = true) :
    feedback e.state.length (tapMask e.taps) (packBits e.state) = e.feedback := by
  obtain ⟨-, -, hnodup, htaps⟩ := (Engine.fits_iff nmax e).1 h
  simp only [feedback, lowBits_packBits (Nat.le_refl _), lowBits_tapMask htaps, parity_and_tapMask hnodup,
    getLsbD_packBits_of_le (Engine.le_32_of_fits h), Engine.feedback]

/-- One shift of the packed seed is one shift of the engine (41_lfsr.md R101). -/
theorem shiftWord_packBits {nmax : NMax} {e : Engine} (h : e.fits nmax = true) :
    shiftWord e.state.length (tapMask e.taps) (packBits e.state) = packBits e.shift.state := by
  have h1 := Engine.one_le_of_fits h
  have h32 := Engine.le_32_of_fits h
  have hlen : e.shift.state.length ≤ 32 := by rwa [Engine.shift_length h1]
  apply BitVec.eq_of_getLsbD_eq
  intro i _
  rw [getLsbD_shiftWord _ _ _ h1 h32, feedback_packBits h, getLsbD_packBits_of_le h32, getLsbD_packBits_of_le hlen,
    Engine.shift]
  have htail : e.state.tail.length = e.state.length - 1 := List.length_tail
  rcases Nat.lt_trichotomy (i + 1) e.state.length with hi | hi | hi
  · simp [hi, List.getElem?_append_left (show i < e.state.tail.length by omega)]
  · simp [hi, List.getElem?_append_right (show e.state.tail.length ≤ i by omega),
      show i - (e.state.length - 1) = 0 by omega]
  · rw [if_neg (Nat.not_lt.2 (Nat.le_of_lt hi)), if_neg (Nat.ne_of_gt hi), List.getD_eq_default]
    exact (Engine.shift_length h1).le.trans (Nat.le_of_lt_succ hi)

/-- Any number of shifts of the packed seed are as many shifts of the engine. -/
theorem shifts_packBits {nmax : NMax} {e : Engine} (h : e.fits nmax = true) (k : Nat) :
    shifts e.state.length (tapMask e.taps) k (packBits e.state) = packBits (e.after k).state := by
  induction k generalizing e with
  | zero => rfl
  | succ k ih =>
    rw [shifts, shiftWord_packBits h, ← Engine.shift_length (Engine.one_le_of_fits h), ← Engine.shift_taps,
      ih (Engine.fits_shift h)]
    rfl

/-- Shifts read only STATE[n-1:0] (41_lfsr.md R101). -/
theorem lowBits_shifts_comm {n : Nat} (taps : Word) (h1 : 1 ≤ n) (h32 : n ≤ 32) (k : Nat) (lfsr : Word) :
    lowBits n (shifts n taps k lfsr) = shifts n taps k (lowBits n lfsr) := by
  cases k with
  | zero => rfl
  | succ k =>
    rw [shifts, shifts, shiftWord_lowBits]
    exact lowBits_shifts n taps h1 h32 k _ (lowBits_shiftWord n taps lfsr h1 h32)

/-- The output bit of the packed seed is the engine's. -/
theorem outBit_packBits (e : Engine) : outBit (packBits e.state) = e.out := by
  rw [outBit, getLsbD_packBits, Engine.out]
  cases e.state <;> rfl

theorem outBit_shifts_eq_out {nmax : NMax} {e : Engine} {lfsr : Word} (h : e.fits nmax = true)
    (hs : lowBits e.state.length lfsr = packBits e.state) (i : Nat) :
    outBit (shifts e.state.length (tapMask e.taps) i lfsr) = (e.after i).out := by
  have h1 := Engine.one_le_of_fits h
  rw [← outBit_lowBits _ _ h1, lowBits_shifts_comm _ h1 (Engine.le_32_of_fits h), hs, shifts_packBits h,
    outBit_packBits]

/-! ### DOUT is the engine's bit stream -/

theorem getLsbD_byteOfBits (bits : List Bool) (i : Nat) :
    (byteOfBits bits).getLsbD i = (decide (i < 8) && bits.getD i false) := by
  rw [byteOfBits, BitVec.getLsbD_setWidth, getLsbD_packBits]
  by_cases hi : i < 8
  · simp [hi, Nat.lt_trans hi (show 8 < 32 by decide)]
  · simp [hi]

/-- STEP's DOUT is the next bit of the stream (41_lfsr.md R104). -/
theorem bitByte_outBit_eq {nmax : NMax} {e : Engine} {lfsr : Word} (h : e.fits nmax = true)
    (hs : lowBits e.state.length lfsr = packBits e.state) :
    bitByte (outBit lfsr) = byteOfBits (e.generateSequence 1) := by
  have hout : outBit lfsr = e.out := outBit_shifts_eq_out h hs 0
  apply BitVec.eq_of_getLsbD_eq
  intro i hi
  rw [getLsbD_bitByte, getLsbD_byteOfBits, Engine.generateSequence_getD, hout, decide_eq_true hi, Bool.true_and]
  cases i <;> simp [Engine.after]

/-- KSBYTE's byte is the next eight bits of the stream, first bit lowest (42_keystream.md R115 to R117). -/
theorem keystreamByte_eq {nmax : NMax} {e : Engine} {lfsr : Word} (h : e.fits nmax = true)
    (hs : lowBits e.state.length lfsr = packBits e.state) :
    keystreamByte e.state.length (tapMask e.taps) lfsr = byteOfBits (e.generateSequence 8) := by
  apply BitVec.eq_of_getLsbD_eq
  intro i hi
  rw [getLsbD_keystreamByte, getLsbD_byteOfBits, Engine.generateSequence_getD, outBit_shifts_eq_out h hs,
    decide_eq_true hi, Bool.true_and, Bool.true_and]

/-! ### A block that holds an engine -/

/-- A block that holds an engine that fits passes the checks of a stepping command (40_config.md R93). -/
theorem State.Holds.configured {s : State} {e : Engine} (h : s.Holds e) (hf : e.fits s.nmax = true) :
    s.Configured := by
  obtain ⟨hlen, -, htaps⟩ := h
  obtain ⟨h1, hle, -, hlt⟩ := (Engine.fits_iff s.nmax e).1 hf
  refine ⟨(lenOk_iff _ _).2 ?_, (tapsOk_iff _).2 ?_⟩
  · rw [hlen]
    exact ⟨h1, hle⟩
  · rw [hlen, htaps]
    exact (lowBits_eq_self_iff _ _).1 (lowBits_tapMask hlt)

/-- A command moves the engine on by the command's shifts (42_keystream.md, Properties the rules give). -/
theorem State.Holds.after_command {s : State} {e : Engine} {nmax : NMax} (h : s.Holds e) (hf : e.fits nmax = true)
    (c : Instr) : (s.setRegs (commandRegs c s.regs.len.toNat s.regs)).Holds (e.after (shiftCount c)) := by
  obtain ⟨hlen, hstate, htaps⟩ := h
  refine ⟨?_, ?_, ?_⟩
  · rw [State.setRegs_regs, commandRegs_len, Engine.after_length hf, hlen]
  · rw [State.setRegs_regs, commandRegs_lfsr, Engine.after_length hf, hlen, htaps,
      lowBits_shifts_comm _ (Engine.one_le_of_fits hf) (Engine.le_32_of_fits hf), hstate, shifts_packBits hf]
  · rw [State.setRegs_regs, commandRegs_taps, Engine.after_taps, htaps]

/-- What a stepping command puts into DOUT for its share of the bit stream (41_lfsr.md R104; 42_keystream.md R117,
R118). -/
def commandByte : Instr → List Bool → Byte
  | .nop, bits => byteOfBits bits
  | .step, bits => byteOfBits bits
  | .ksbyte, bits => byteOfBits bits
  | .cipher d, bits => d ^^^ byteOfBits bits

/-- A stepping command's share is the engine's next bits, one for each of its shifts. -/
theorem State.Holds.dout_of_command {s : State} {e : Engine} {nmax : NMax} (h : s.Holds e)
    (hf : e.fits nmax = true) {c : Instr} (hc : isStepping c = true) :
    (commandRegs c s.regs.len.toNat s.regs).dout = commandByte c (e.generateSequence (shiftCount c)) := by
  obtain ⟨hlen, hstate, htaps⟩ := h
  cases c with
  | nop => cases hc
  | step => exact bitByte_outBit_eq hf hstate
  | ksbyte =>
    rw [commandRegs, ksbyteRegs_dout, hlen, htaps]
    exact keystreamByte_eq hf hstate
  | cipher d =>
    rw [commandRegs, cipherRegs_dout, hlen, htaps]
    exact congrArg (d ^^^ ·) (keystreamByte_eq hf hstate)

/-- Commands of a block that holds an engine complete, and move the engine on by all their shifts. -/
theorem execAll_holds (cs : List Instr) {s : State} {e : Engine} (hf : e.fits s.nmax = true) (h : s.Holds e) :
    ∃ t, execAll cs s = .next t ∧ t.nmax = s.nmax ∧ t.Holds (e.after (cs.map shiftCount).sum) := by
  induction cs generalizing s e with
  | nil => exact ⟨s, rfl, rfl, h⟩
  | cons c cs ih =>
    obtain ⟨t, ht, hn, hholds⟩ := ih (s := s.setRegs (commandRegs c s.regs.len.toNat s.regs))
      (Engine.fits_after hf (shiftCount c)) (h.after_command hf c)
    refine ⟨t, ?_, hn, ?_⟩
    · simp only [execAll, exec_of_configured c (h.configured hf), ht]
    · rwa [List.map_cons, List.sum_cons, Engine.after_add]

/-- Settles O20: the commands before c leave the block holding the engine after their shifts, whose next bits are c's
share of the stream. -/
theorem mixedCommandsConsumeOneStream : Obligations.MixedCommandsConsumeOneStream := by
  intro s e cs c hf h hc
  obtain ⟨u, hu, hn, hholds⟩ := execAll_holds cs hf h
  have hfit : (e.after (cs.map shiftCount).sum).fits u.nmax = true := hn ▸ Engine.fits_after hf _
  have hexec := exec_of_configured c (hholds.configured hfit)
  have hsum : ((cs ++ [c]).map shiftCount).sum = (cs.map shiftCount).sum + shiftCount c := by simp
  refine ⟨u.setRegs (commandRegs c u.regs.len.toNat u.regs), ?_, ?_, ?_⟩
  · rw [execAll_append, hu]
    simp only [execAll, hexec]
  · rw [hsum, Engine.after_add]
    exact hholds.after_command hfit c
  · rw [hsum, Engine.drop_generateSequence, State.setRegs_regs, hholds.dout_of_command hfit hc]
    cases c with
    | nop => cases hc
    | step => rfl
    | ksbyte => rfl
    | cipher d => rfl

end Sys2Proof.Machine
end

section
/-! PROOFS. The family other: what the commands give for STATE and DOUT, bit by bit (41_lfsr.md R100 to R104 and its
properties; 42_keystream.md R116 to R118 and its properties). -/

namespace Sys2Proof.Machine

/-! ### CIPHER, and the frame of the commands -/

/-- Settles O9: KSBYTE and CIPHER make the same shifts, and CIPHER XORs its byte in. -/
theorem cipherXorsTheKeystreamByte : Obligations.CipherXorsTheKeystreamByte := by
  intro s d hc
  refine ⟨_, _, exec_of_configured (.cipher d) hc, exec_of_configured .ksbyte hc, rfl, ?_⟩
  intro b hb
  rw [State.setRegs_regs, commandRegs, cipherRegs_dout, BitVec.getLsbD_xor, getLsbD_keystreamByte_of_lt _ _ _ hb]

/-- A command whose checks pass changes STATE and DOUT alone (10_state.md R31). -/
theorem commandRegs_frame (i : Instr) (n : Nat) (r : Regs) :
    commandRegs i n r = { r with lfsr := (commandRegs i n r).lfsr, dout := (commandRegs i n r).dout } := by
  cases i <;> rfl

theorem ne_nop_of_isStepping {i : Instr} (h : isStepping i = true) : i ≠ .nop := by
  rintro rfl
  cases h

/-- Settles O11: the frame of each branch of `exec_cases`. -/
theorem commandsTouchOnlyStateDoutAndStatus : Obligations.CommandsTouchOnlyStateDoutAndStatus := by
  intro s t i h
  rcases exec_cases i s with ⟨-, he⟩ | ⟨hi, hc, he⟩ | ⟨hi, hlen, he⟩ | ⟨hi, -, htaps, he⟩
  all_goals
    rw [he] at h
    cases h
  · exact ⟨rfl, fun _ => rfl, fun _ => rfl, fun _ => ⟨rfl, rfl⟩⟩
  · refine ⟨?_, fun hn => absurd hn (ne_nop_of_isStepping hi), fun _ => commandRegs_status _ _ _,
      fun hnc => absurd hc hnc⟩
    rw [State.setRegs_regs, commandRegs_status]
    exact congrArg s.setRegs (commandRegs_frame i _ s.regs)
  · refine ⟨rfl, fun hn => absurd hn (ne_nop_of_isStepping hi), fun hc => ?_, fun _ => ⟨rfl, rfl⟩⟩
    cases hlen.symm.trans hc.1
  · refine ⟨rfl, fun hn => absurd hn (ne_nop_of_isStepping hi), fun hc => ?_, fun _ => ⟨rfl, rfl⟩⟩
    cases htaps.symm.trans hc.2

/-! ### Many STEPs -/

/-- STATE and DOUT after k+1 STEPs: all their shifts, and the output bit of the last (41_lfsr.md R104). -/
theorem execAll_steps (k : Nat) {s : State} (h : s.Configured) :
    execAll (List.replicate (k + 1) .step) s = .next (s.setRegs { s.regs with
      lfsr := shifts s.regs.len.toNat s.regs.taps (k + 1) s.regs.lfsr
      dout := bitByte (outBit (shifts s.regs.len.toNat s.regs.taps k s.regs.lfsr)) }) := by
  induction k generalizing s with
  | zero =>
    simp only [List.replicate, execAll, exec_of_configured .step h]
    rfl
  | succ k ih =>
    rw [List.replicate_succ]
    simp only [execAll, exec_of_configured .step h, ih (configured_commandRegs .step h)]
    rfl

/-- As long as no feedback bit has reached it, bit i of STATE is the old bit i + k after k shifts (41_lfsr.md R101). -/
theorem getLsbD_shifts_of_lt {n : Nat} (taps lfsr : Word) (h32 : n ≤ 32) (k : Nat) {i : Nat} (h : i + k < n) :
    (shifts n taps k lfsr).getLsbD i = lfsr.getLsbD (i + k) := by
  induction k generalizing i with
  | zero => rfl
  | succ k ih =>
    rw [shifts_succ_last, getLsbD_shiftWord _ _ _ (by omega) h32, if_pos (by omega), ih (by omega),
      Nat.add_right_comm, Nat.add_assoc]

/-- The output of the (k+1)-th shift is the old bit k, for k below n. -/
theorem outBit_shifts_of_lt {n : Nat} (taps lfsr : Word) (h32 : n ≤ 32) {k : Nat} (h : k < n) :
    outBit (shifts n taps k lfsr) = lfsr.getLsbD k := by
  rw [outBit, getLsbD_shifts_of_lt taps lfsr h32 k (by omega), Nat.zero_add]

/-- The output of the (n+1)-th shift is the first feedback bit. -/
theorem outBit_shifts_self {n : Nat} (taps lfsr : Word) (h1 : 1 ≤ n) (h32 : n ≤ 32) :
    outBit (shifts n taps n lfsr) = feedback n taps lfsr := by
  obtain ⟨m, rfl⟩ : ∃ m, n = m + 1 := ⟨n - 1, by omega⟩
  rw [shifts, outBit_shifts_of_lt _ _ h32 (Nat.lt_succ_self m), getLsbD_shiftWord _ _ _ h1 h32,
    if_neg (Nat.lt_irrefl _), if_pos rfl]

theorem bitByte_eq_ite (b : Bool) : bitByte b = if b then 1#8 else 0#8 := by
  cases b <;> rfl

/-- Settles O14: the outputs of `execAll_steps`, before and at the first feedback bit. -/
theorem firstOutputsAreTheSeedBits : Obligations.FirstOutputsAreTheSeedBits := by
  intro s hc
  constructor
  · intro k hk
    refine ⟨_, execAll_steps k hc, ?_⟩
    rw [State.setRegs_regs, outBit_shifts_of_lt _ _ hc.le_32 hk, bitByte_eq_ite]
  · refine ⟨_, execAll_steps _ hc, ?_⟩
    rw [State.setRegs_regs, outBit_shifts_self _ _ hc.one_le hc.le_32, feedback_eq_tappedParity _ _ _ hc.le_32,
      bitByte_eq_ite]

/-- Settles O18: KSBYTE's eight shifts, and the output bit of each. -/
theorem ksbyteAgreesWithEightSteps : Obligations.KsbyteAgreesWithEightSteps := by
  intro s hc
  refine ⟨_, _, exec_of_configured .ksbyte hc, execAll_steps 7 hc, commandRegs_lfsr .ksbyte _ _, ?_⟩
  intro b hb
  refine ⟨_, execAll_steps b hc, ?_⟩
  rw [State.setRegs_regs, State.setRegs_regs, getLsbD_bitByte, commandRegs, ksbyteRegs_dout,
    getLsbD_keystreamByte_of_lt _ _ _ hb]
  rfl

/-- Settles O19: with n >= 8 no feedback bit is among KSBYTE's eight outputs. -/
theorem ksbyteReturnsTheLowByte : Obligations.KsbyteReturnsTheLowByte := by
  intro s hc h8
  refine ⟨_, exec_of_configured .ksbyte hc, ?_⟩
  apply BitVec.eq_of_getLsbD_eq
  intro b hb
  rw [State.setRegs_regs, commandRegs, ksbyteRegs_dout, getLsbD_keystreamByte,
    outBit_shifts_of_lt _ _ hc.le_32 (Nat.lt_of_lt_of_le hb h8), BitVec.getLsbD_extractLsb', Nat.zero_add]

/-! ### The corner cases of STEP -/

theorem feedback_zero_taps (n : Nat) (lfsr : Word) : feedback n 0#32 lfsr = false := by
  rw [feedback, lowBits_zero_word, BitVec.and_zero, parity_zero]

/-- With no taps, k+1 shifts of n bits empty the k+1 bits below n, and all from n up. -/
theorem getLsbD_shifts_zero_taps {n : Nat} (lfsr : Word) (h1 : 1 ≤ n) (h32 : n ≤ 32) (k : Nat) {i : Nat}
    (h : n ≤ i + (k + 1)) : (shifts n 0#32 (k + 1) lfsr).getLsbD i = false := by
  induction k generalizing i with
  | zero =>
    rw [shifts, shifts, getLsbD_shiftWord _ _ _ h1 h32, if_neg (Nat.not_lt.2 h), feedback_zero_taps, ite_self]
  | succ k ih =>
    rw [shifts_succ_last, getLsbD_shiftWord _ _ _ h1 h32, feedback_zero_taps, ih (by omega), ite_self, ite_self]

/-- Only bit 0 of STATE is shifted out at n = 1, and the feedback is that bit when it is tapped. -/
theorem shiftWord_one (taps lfsr : Word) : shiftWord 1 taps lfsr = lfsr &&& taps &&& 1#32 := by
  apply BitVec.eq_of_getLsbD_eq
  intro i _
  rw [getLsbD_shiftWord _ _ _ (by decide) (by decide), feedback_eq_tappedParity _ _ _ (by decide),
    BitVec.getLsbD_and, BitVec.getLsbD_and, BitVec.getLsbD_one]
  cases i <;> simp [tappedParity]

/-- TAPS bits from NMAX up are hardwired to 0, so no tap is out of range at n = NMAX (10_state.md R26). -/
theorem configured_of_len_eq_nmax {s : State} (hs : s.regs.Hardwired s.nmax) (hlen : s.regs.len.toNat = s.nmax.val) :
    s.Configured := by
  refine ⟨(lenOk_iff _ _).2 ?_, (tapsOk_iff _).2 ?_⟩
  · rw [hlen]
    exact ⟨s.nmax.pos, Nat.le_refl _⟩
  · rw [hlen]
    exact (lowBits_eq_self_iff _ _).1 hs.2

theorem tapsOk_of_zero {r : Regs} (h : r.taps = 0#32) : tapsOk r = true := by
  rw [tapsOk_iff, h]
  simp

/-- Settles O12: `shiftWord_one`, the hardwired zeros of TAPS, and n shifts without taps. -/
theorem stepCornerCases : Obligations.StepCornerCases := by
  refine ⟨?_, ?_, ?_⟩
  · intro s hc hlen
    refine ⟨_, exec_of_configured .step hc, ?_⟩
    rw [State.setRegs_regs, commandRegs, stepRegs_lfsr, hlen]
    exact shiftWord_one _ _
  · rintro s ⟨hhard, -⟩ hlen
    exact configured_of_len_eq_nmax hhard hlen
  · intro s hlen htaps
    have hc : s.Configured := ⟨hlen, tapsOk_of_zero htaps⟩
    obtain ⟨m, hm⟩ : ∃ m, s.regs.len.toNat = m + 1 := ⟨s.regs.len.toNat - 1, by have := hc.one_le; omega⟩
    refine ⟨_, (by rw [hm]; exact execAll_steps m hc), ?_⟩
    apply BitVec.eq_of_getLsbD_eq
    intro i _
    rw [State.setRegs_regs, htaps, getLsbD_shifts_zero_taps _ hc.one_le hc.le_32 m (by omega), BitVec.getLsbD_zero]

/-! ### Only STATE[n-1:0], TAPS[n-1:0] and n count -/

section
variable {n : Nat} {taps x y : Word}

/-- From the first shift on, the bits from n up play no part (41_lfsr.md R101). -/
theorem shifts_succ_congr (h : lowBits n x = lowBits n y) (k : Nat) :
    shifts n taps (k + 1) x = shifts n taps (k + 1) y := by
  rw [shifts, shifts, ← shiftWord_lowBits n taps x, h, shiftWord_lowBits]

theorem lowBits_shifts_congr (h : lowBits n x = lowBits n y) (k : Nat) :
    lowBits n (shifts n taps k x) = lowBits n (shifts n taps k y) := by
  cases k with
  | zero => exact h
  | succ k => rw [shifts_succ_congr h]

theorem outBit_congr (h1 : 1 ≤ n) (h : lowBits n x = lowBits n y) : outBit x = outBit y := by
  rw [← outBit_lowBits n x h1, h, outBit_lowBits n y h1]

theorem keystreamByte_congr (h1 : 1 ≤ n) (h : lowBits n x = lowBits n y) :
    keystreamByte n taps x = keystreamByte n taps y := by
  apply BitVec.eq_of_getLsbD_eq
  intro i _
  rw [getLsbD_keystreamByte, getLsbD_keystreamByte, outBit_congr h1 (lowBits_shifts_congr h i)]

end

section
variable {n : Nat} {r q : Regs}

/-- A stepping command's STATE depends on STATE[n-1:0], TAPS and n alone. -/
theorem commandRegs_lfsr_congr {i : Instr} (hi : isStepping i = true)
    (ht : r.taps = q.taps) (h : lowBits n r.lfsr = lowBits n q.lfsr) :
    (commandRegs i n r).lfsr = (commandRegs i n q).lfsr := by
  obtain ⟨k, hk⟩ : ∃ k, shiftCount i = k + 1 := by
    cases i with
    | nop => cases hi
    | step => exact ⟨0, rfl⟩
    | ksbyte => exact ⟨7, rfl⟩
    | cipher d => exact ⟨7, rfl⟩
  rw [commandRegs_lfsr, commandRegs_lfsr, ht, hk, shifts_succ_congr h]

/-- And so does its DOUT. -/
theorem commandRegs_dout_congr {i : Instr} (hi : isStepping i = true) (h1 : 1 ≤ n)
    (ht : r.taps = q.taps) (h : lowBits n r.lfsr = lowBits n q.lfsr) :
    (commandRegs i n r).dout = (commandRegs i n q).dout := by
  cases i with
  | nop => cases hi
  | step => exact congrArg bitByte (outBit_congr h1 h)
  | ksbyte =>
    rw [commandRegs, commandRegs, ksbyteRegs_dout, ksbyteRegs_dout, ht]
    exact keystreamByte_congr h1 h
  | cipher d =>
    rw [commandRegs, commandRegs, cipherRegs_dout, cipherRegs_dout, ht]
    exact congrArg (d ^^^ ·) (keystreamByte_congr h1 h)

end

/-- Two configured blocks of one length and tap set whose STATE agrees below n and whose DOUT is equal. -/
structure SameLfsr (s t : State) : Prop where
  left : s.Configured
  right : t.Configured
  len : s.regs.len = t.regs.len
  taps : s.regs.taps = t.regs.taps
  lfsr : lowBits s.regs.len.toNat s.regs.lfsr = lowBits s.regs.len.toNat t.regs.lfsr
  dout : s.regs.dout = t.regs.dout

/-- A command keeps the agreement: NOP leaves both, and a stepping command reads no more than what agrees. -/
theorem SameLfsr.after_command {s t : State} (h : SameLfsr s t) (c : Instr) :
    SameLfsr (s.setRegs (commandRegs c s.regs.len.toNat s.regs))
      (t.setRegs (commandRegs c t.regs.len.toNat t.regs)) where
  left := configured_commandRegs c h.left
  right := configured_commandRegs c h.right
  len := by simpa using h.len
  taps := by simpa using h.taps
  lfsr := by
    rw [State.setRegs_regs, State.setRegs_regs, commandRegs_len, commandRegs_lfsr, commandRegs_lfsr, ← h.len,
      ← h.taps]
    exact lowBits_shifts_congr h.lfsr _
  dout := by
    rw [State.setRegs_regs, State.setRegs_regs, ← h.len]
    cases hc : isStepping c with
    | true => exact commandRegs_dout_congr hc h.left.one_le h.taps h.lfsr
    | false =>
      cases c with
      | nop => exact h.dout
      | step => cases hc
      | ksbyte => cases hc
      | cipher d => cases hc

theorem SameLfsr.after_commands {s t : State} (h : SameLfsr s t) (cs : List Instr) :
    ∃ u v, execAll cs s = .next u ∧ execAll cs t = .next v ∧ SameLfsr u v ∧ u.regs.len = s.regs.len := by
  induction cs generalizing s t with
  | nil => exact ⟨s, t, rfl, rfl, h, rfl⟩
  | cons c cs ih =>
    obtain ⟨u, v, hu, hv, huv, hlen⟩ := ih (h.after_command c)
    refine ⟨u, v, ?_, ?_, huv, by simpa using hlen⟩
    · simp only [execAll, exec_of_configured c h.left, hu]
    · simp only [execAll, exec_of_configured c h.right, hv]

/-- Settles O13: with the checks passed TAPS is TAPS[n-1:0], so the two blocks agree in all a command reads. -/
theorem resultsDependOnlyOnTheLfsrBits : Obligations.ResultsDependOnlyOnTheLfsrBits := by
  intro s s' hc hc' hlen hlfsr htapsLow
  have htaps : s.regs.taps = s'.regs.taps := by
    rw [← hc.lowBits_taps, htapsLow, hlen, hc'.lowBits_taps]
  constructor
  · intro i hi
    refine ⟨_, _, exec_of_configured i hc, exec_of_configured i hc', ?_, ?_⟩
    · rw [State.setRegs_regs, State.setRegs_regs, ← hlen]
      exact commandRegs_lfsr_congr hi htaps hlfsr
    · rw [State.setRegs_regs, State.setRegs_regs, ← hlen]
      exact commandRegs_dout_congr hi hc.one_le htaps hlfsr
  · intro hdout cs
    obtain ⟨t, t', ht, ht', hsame, htlen⟩ := SameLfsr.after_commands ⟨hc, hc', hlen, htaps, hlfsr, hdout⟩ cs
    exact ⟨t, t', ht, ht', hsame.dout, htlen ▸ hsame.lfsr⟩

/-! ### The all-zero state -/

theorem shiftWord_zero (n : Nat) (taps : Word) : shiftWord n taps 0#32 = 0#32 := by
  simp [shiftWord, feedback, lowBits_zero_word, parity_zero, bitWord]

theorem shifts_zero (n : Nat) (taps : Word) (k : Nat) : shifts n taps k 0#32 = 0#32 := by
  induction k with
  | zero => rfl
  | succ k ih => rw [shifts, shiftWord_zero, ih]

theorem keystreamByte_zero (n : Nat) (taps : Word) : keystreamByte n taps 0#32 = 0#8 := by
  apply BitVec.eq_of_getLsbD_eq
  intro i _
  simp [getLsbD_keystreamByte, shifts_zero, outBit]

/-- Settles O15: STATE[n-1:0] = 0 shifts as the word 0 does, whose outputs are all 0. -/
theorem zeroStateIsAFixedPoint : Obligations.ZeroStateIsAFixedPoint := by
  intro s i hc hi hzero
  have hlow : lowBits s.regs.len.toNat s.regs.lfsr = lowBits s.regs.len.toNat 0#32 := by
    rw [hzero, lowBits_zero_word]
  have hbyte : keystreamByte s.regs.len.toNat s.regs.taps s.regs.lfsr = 0#8 := by
    rw [keystreamByte_congr hc.one_le hlow, keystreamByte_zero]
  refine ⟨_, exec_of_configured i hc, ?_, commandRegs_status _ _ _, ?_⟩
  · rw [State.setRegs_regs, commandRegs_lfsr_congr (n := s.regs.len.toNat) (r := s.regs)
      (q := { s.regs with lfsr := 0#32 }) hi rfl hlow, commandRegs_lfsr, shifts_zero]
  · rw [State.setRegs_regs]
    cases i with
    | nop => cases hi
    | step => rw [commandRegs, stepRegs_dout, outBit_congr hc.one_le hlow]; rfl
    | ksbyte => rw [commandRegs, ksbyteRegs_dout, hbyte]
    | cipher d => rw [commandRegs, cipherRegs_dout, hbyte, BitVec.xor_zero]

/-! ### Linearity -/

theorem xor_and_distrib (x y m : Word) : (x ^^^ y) &&& m = (x &&& m) ^^^ (y &&& m) := by
  apply BitVec.eq_of_getLsbD_eq
  intro i _
  simp only [BitVec.getLsbD_and, BitVec.getLsbD_xor, Bool.and_xor_distrib_right]

theorem feedback_xor (n : Nat) (taps x y : Word) :
    feedback n taps (x ^^^ y) = (feedback n taps x).xor (feedback n taps y) := by
  rw [feedback, lowBits_xor, xor_and_distrib, parity_xor, feedback, feedback]

theorem shiftWord_xor {n : Nat} (taps x y : Word) (h1 : 1 ≤ n) (h32 : n ≤ 32) :
    shiftWord n taps (x ^^^ y) = shiftWord n taps x ^^^ shiftWord n taps y := by
  apply BitVec.eq_of_getLsbD_eq
  intro i _
  simp only [BitVec.getLsbD_xor, getLsbD_shiftWord _ _ _ h1 h32, feedback_xor]
  split_ifs <;> rfl

theorem shifts_xor {n : Nat} (taps : Word) (h1 : 1 ≤ n) (h32 : n ≤ 32) (k : Nat) (x y : Word) :
    shifts n taps k (x ^^^ y) = shifts n taps k x ^^^ shifts n taps k y := by
  induction k generalizing x y with
  | zero => rfl
  | succ k ih => rw [shifts, shiftWord_xor taps x y h1 h32, ih]; rfl

theorem bitByte_outBit_xor (x y : Word) :
    bitByte (outBit (x ^^^ y)) = bitByte (outBit x) ^^^ bitByte (outBit y) := by
  rw [outBit, BitVec.getLsbD_xor, outBit, outBit]
  cases x.getLsbD 0 <;> cases y.getLsbD 0 <;> rfl

/-- The checks do not look at STATE (10_state.md R29). -/
theorem State.Configured.withLfsr {s : State} (h : s.Configured) (x : Word) : (s.withLfsr x).Configured := h

/-- Settles O16: the shifts and the output bit are linear over XOR, and k+1 STEPs are nothing else. -/
theorem shiftsAreLinear : Obligations.ShiftsAreLinear := by
  intro s x y k hc
  refine ⟨_, _, _, execAll_steps k (hc.withLfsr x), execAll_steps k (hc.withLfsr y),
    execAll_steps k (hc.withLfsr (x ^^^ y)), ?_, ?_⟩
  · exact shifts_xor _ hc.one_le hc.le_32 (k + 1) x y
  · exact (congrArg (fun w => bitByte (outBit w)) (shifts_xor s.regs.taps hc.one_le hc.le_32 k x y)).trans
      (bitByte_outBit_xor _ _)

/-! ### Invertibility -/

theorem stepLfsr_eq {s : State} (h : s.Configured) (x : Word) :
    stepLfsr s x = some (shiftWord s.regs.len.toNat s.regs.taps x) := by
  simp only [stepLfsr, exec_of_configured .step (h.withLfsr x)]
  rfl

/-- A word is its bit 0 and the other bits. -/
theorem eq_bit0_xor_others (x : Word) : x = (x &&& 1#32) ^^^ (x &&& 0xFFFFFFFE#32) := by
  rw [show 0xFFFFFFFE#32 = ~~~1#32 by decide]
  apply BitVec.eq_of_getLsbD_eq
  intro i hi
  rw [BitVec.getLsbD_xor, BitVec.getLsbD_and, BitVec.getLsbD_and, BitVec.getLsbD_not, decide_eq_true hi]
  cases x.getLsbD i <;> cases (1#32).getLsbD i <;> rfl

/-- The feedback bit of bit 0 alone. -/
theorem feedback_bit0 {n : Nat} (taps x : Word) (h1 : 1 ≤ n) :
    feedback n taps (x &&& 1#32) = (x.getLsbD 0 && taps.getLsbD 0) := by
  have hbit : ∀ i, (lowBits n (x &&& 1#32) &&& lowBits n taps).getLsbD i
      = (decide (i = 0) && (x.getLsbD 0 && taps.getLsbD 0)) := by
    intro i
    rw [BitVec.getLsbD_and, getLsbD_lowBits, getLsbD_lowBits, BitVec.getLsbD_and, BitVec.getLsbD_one]
    by_cases hi : i = 0
    · subst hi
      simp [Nat.lt_of_lt_of_le Nat.zero_lt_one h1]
    · simp [hi]
  have hsingle : ∀ i, i ≠ 0 → (lowBits n (x &&& 1#32) &&& lowBits n taps).getLsbD i = false := by
    intro i hi
    rw [hbit, decide_eq_false hi, Bool.false_and]
  rw [feedback, parity, parityBelow_of_single hsingle, hbit]
  rfl

/-- The feedback bit, the part of bit 0 written apart (41_lfsr.md R100). -/
theorem feedback_eq_bit0_xor {n : Nat} (taps x : Word) (h1 : 1 ≤ n) :
    feedback n taps x = (x.getLsbD 0 && taps.getLsbD 0).xor (feedback n taps (x &&& 0xFFFFFFFE#32)) := by
  conv_lhs => rw [eq_bit0_xor_others x]
  rw [feedback_xor, feedback_bit0 taps x h1]

/-- With index 0 tapped, the lost bit 0 can be recovered from the feedback bit and the other bits. -/
theorem bit0_eq_of_tap0 {n : Nat} {taps : Word} (h1 : 1 ≤ n) (h32 : n ≤ 32) (htap : taps.getLsbD 0 = true) (x : Word) :
    x.getLsbD 0 = ((shiftWord n taps x).getLsbD (n - 1)).xor (feedback n taps (x &&& 0xFFFFFFFE#32)) := by
  rw [getLsbD_shiftWord _ _ _ h1 h32, if_neg (by omega), if_pos (by omega), feedback_eq_bit0_xor taps x h1, htap,
    Bool.and_true, Bool.xor_assoc, Bool.xor_self, Bool.xor_false]

/-- With index 0 tapped, the shift loses nothing: the next state gives the upper bits, and they give bit 0. -/
theorem shiftWord_inj_of_tap0 {n : Nat} {taps x y : Word} (h1 : 1 ≤ n) (h32 : n ≤ 32)
    (htap : taps.getLsbD 0 = true) (hx : lowBits n x = x) (hy : lowBits n y = y)
    (h : shiftWord n taps x = shiftWord n taps y) : x = y := by
  have hupper : ∀ i, 1 ≤ i → i < n → x.getLsbD i = y.getLsbD i := by
    intro i hi hin
    obtain ⟨j, rfl⟩ : ∃ j, i = j + 1 := ⟨i - 1, by omega⟩
    have hbit := congrArg (fun w : Word => w.getLsbD j) h
    simpa [getLsbD_shiftWord _ _ _ h1 h32, hin] using hbit
  have hothers : lowBits n (x &&& 0xFFFFFFFE#32) = lowBits n (y &&& 0xFFFFFFFE#32) := by
    rw [lowBits_eq_iff]
    intro i hin
    rw [BitVec.getLsbD_and, BitVec.getLsbD_and]
    rcases Nat.eq_zero_or_pos i with rfl | hi
    · simp
    · rw [hupper i hi hin]
  have hzero : x.getLsbD 0 = y.getLsbD 0 := by
    rw [bit0_eq_of_tap0 h1 h32 htap x, bit0_eq_of_tap0 h1 h32 htap y, h, ← feedback_lowBits, hothers,
      feedback_lowBits]
  rw [← hx, ← hy, lowBits_eq_iff]
  intro i hin
  rcases Nat.eq_zero_or_pos i with rfl | hi
  · exact hzero
  · exact hupper i hi hin

/-- Without a tap at index 0, bit 0 is lost. -/
theorem shiftWord_xor_one_of_not_tap0 {n : Nat} {taps : Word} (h1 : 1 ≤ n) (h32 : n ≤ 32)
    (htap : taps.getLsbD 0 = false) (x : Word) : shiftWord n taps (x ^^^ 1#32) = shiftWord n taps x := by
  have hone : shiftWord n taps 1#32 = 0#32 := by
    have hfeedback : feedback n taps 1#32 = false := by
      rw [← BitVec.and_self (x := 1#32), feedback_bit0 taps 1#32 h1, htap, Bool.and_false]
    apply BitVec.eq_of_getLsbD_eq
    intro i _
    rw [getLsbD_shiftWord _ _ _ h1 h32, hfeedback]
    simp
  rw [shiftWord_xor taps x _ h1 h32, hone, BitVec.xor_zero]

/-- Settles O17: with index 0 tapped the lost bit can be recovered; without, 0 and 1 have the same next state. -/
theorem shiftIsInvertibleIffTapZero : Obligations.ShiftIsInvertibleIffTapZero := by
  intro s hc
  have h1 := hc.one_le
  have h32 := hc.le_32
  simp only [stepLfsr_eq hc, Option.some.injEq]
  refine ⟨⟨?_, ?_⟩, ?_, ?_⟩
  · intro hinj
    by_contra htap
    have hlow : lowBits s.regs.len.toNat 1#32 = 1#32 := by
      rw [lowBits_eq_self_iff]
      intro i hi
      simp [BitVec.getLsbD_one, show i ≠ 0 by omega]
    have hsame := shiftWord_xor_one_of_not_tap0 h1 h32 (Bool.eq_false_of_not_eq_true htap) 0#32
    exact absurd (hinj _ _ hlow (lowBits_zero_word _) hsame) (by decide)
  · intro htap x y hx hy h
    exact shiftWord_inj_of_tap0 h1 h32 htap hx hy h
  · rintro htap x z rfl
    rw [← feedback_eq_tappedParity _ _ _ h32]
    exact bit0_eq_of_tap0 h1 h32 htap x
  · intro htap x
    exact shiftWord_xor_one_of_not_tap0 h1 h32 htap x

end Sys2Proof.Machine
end

section
/-! PROOFS. The family other: who writes a register, and what sets and clears a flag (10_state.md R24, R28, R31;
20_memory.md R53, R54; 40_config.md R86 to R89; 60_exceptions.md R132). -/

namespace Sys2Proof.Machine

/-! ### A write to a running block -/

/-- A 4-byte write at the offset of a register other than ID and DOUT is legal (20_memory.md R55). -/
theorem legal_write_of_off {a : BusAccess} {r : Reg} (hw : isFourBytes a.width = true) (ho : a.off = regOffset r)
    (hi : r ≠ .id) (hd : r ≠ .dout) : ¬ AccessIllegal a := by
  have hlegal := legal_wrAccess r 0#32 hi hd
  simp only [AccessIllegal, wrAccess, isFourBytes, true_and, not_or, ← ho] at hlegal
  simp only [AccessIllegal, hw, not_or, not_and]
  obtain ⟨-, halign, hslot, hid, hdout⟩ := hlegal
  exact ⟨by decide, halign, hslot, fun _ => ⟨hid, hdout⟩⟩

/-- A legal write of a running block is the register's write action and the answer OKAY (20_memory.md R53). -/
theorem step_write {s : State} {a : BusAccess} {rest : List HostEvent} {r : Reg} (hp : s.phase = .running)
    (hin : s.inputs = .access a :: rest) (hk : a.kind = .write) (hw : isFourBytes a.width = true)
    (ho : a.off = regOffset r) (hi : r ≠ .id) (hd : r ≠ .dout) :
    step s = answering (.write .okay) (writeReg r a.wdata (s.withInputs rest)) := by
  have ht : accessTarget a = some r := (accessTarget_eq_some_iff a r).2 ⟨legal_write_of_off hw ho hi hd, ho⟩
  rw [step_access hp hin, busAccess_write ht hk]

theorem tableWord_toNat (w : Word) : tableWord 32 w.toNat = w := by
  simp [tableWord, Nat.mod_eq_of_lt w.isLt]

/-- A legal word written to CMD runs its command (30_encoding.md R70). -/
theorem writeCmd_of_ok {w : Word} {i : Instr} (h : decode w = .ok i) (s : State) : writeCmd w s = exec i s := by
  simp [writeCmd, h]

/-- Settles O5: the write action of CMD with a legal word is `exec`, and `withFetchWord` puts that write first. -/
theorem stepRunsTheDecodedCommand : Obligations.StepRunsTheDecodedCommand := by
  have hruns : ∀ (s : State) (a : BusAccess) (rest : List HostEvent) (i : Instr), s.phase = .running →
      s.inputs = .access a :: rest → a.kind = .write → a.off.val = 0x04 → isFourBytes a.width = true →
      decode a.wdata = .ok i → step s = answering (.write .okay) (exec i { s with inputs := rest }) := by
    intro s a rest i hp hin hk ho hw hi
    rw [step_write hp hin hk hw (r := .cmd) (Fin.ext ho) (by decide) (by decide), writeReg, writeCmd_of_ok hi]
    rfl
  constructor
  · intro s a rest i hp hin hk ho hw hi
    rw [hruns s a rest i hp hin hk ho hw hi]
    cases exec i { s with inputs := rest } <;> rfl
  · intro s w i hi
    rw [State.withFetchWord, tableWord_toNat, hruns _ _ s.inputs i rfl rfl rfl rfl rfl hi]
    change answering (.write .okay) (exec i { s with phase := .running }) = _
    cases exec i { s with phase := .running } <;> rfl

/-- A write of 1 clears a flag, and nothing else does (40_config.md R89). -/
theorem getLsbD_clearFlags (status : BitVec 4) (v : Word) (j : Nat) :
    (clearFlags status v).getLsbD j = (status.getLsbD j && !v.getLsbD j) := by
  rw [clearFlags, BitVec.getLsbD_and, BitVec.getLsbD_not, BitVec.getLsbD_extractLsb', Nat.zero_add]
  by_cases hj : j < 4
  · simp [hj]
  · simp [BitVec.getLsbD_of_ge status j (Nat.not_lt.1 hj)]

/-- Settles O25: the four write actions, bit by bit. -/
theorem writesSetOneRegister : Obligations.WritesSetOneRegister := by
  intro s a rest hp hin hk hw
  obtain ⟨regs, q, he, -⟩ := busAccess_answers a (s.withInputs rest)
  have hstep := (step_access hp hin).trans he
  refine ⟨_, hstep, ?_, ?_, ?_, ?_⟩
  · intro ho
    cases hstep.symm.trans (step_write hp hin hk hw (r := .len) (Fin.ext ho) (by decide) (by decide))
    refine ⟨rfl, fun j hj => ?_⟩
    simp [hj]
  · intro ho
    cases hstep.symm.trans (step_write hp hin hk hw (r := .taps) (Fin.ext ho) (by decide) (by decide))
    exact ⟨rfl, fun j => (getLsbD_lowBits s.nmax.val j a.wdata).trans (Bool.and_comm _ _)⟩
  · intro ho
    cases hstep.symm.trans (step_write hp hin hk hw (r := .state) (Fin.ext ho) (by decide) (by decide))
    exact ⟨rfl, fun j => (getLsbD_lowBits s.nmax.val j a.wdata).trans (Bool.and_comm _ _)⟩
  · intro ho
    cases hstep.symm.trans (step_write hp hin hk hw (r := .status) (Fin.ext ho) (by decide) (by decide))
    exact ⟨rfl, getLsbD_clearFlags s.regs.status a.wdata⟩

/-! ### Who sets and who clears a flag -/

/-- Raising an error sets the bit of its code and keeps the others (60_exceptions.md R132). -/
theorem getLsbD_raiseFlag (k : ErrKind) (status : BitVec 4) (j : Nat) :
    (raiseFlag k status).getLsbD j = (status.getLsbD j || decide (errCode k = j)) := by
  have hcode : errCode k < 4 := by cases k <;> decide
  rw [raiseFlag, BitVec.getLsbD_or, ← BitVec.twoPow_eq, BitVec.getLsbD_twoPow, decide_eq_true hcode, Bool.true_and]

theorem raiseError_keeps_flag (k : ErrKind) {s : State} {j : Nat} (h : s.regs.status.getLsbD j = true) :
    (raiseError k s).regs.status.getLsbD j = true := by
  rw [raiseError_status, getLsbD_raiseFlag, h, Bool.true_or]

/-- No command clears a flag (60_exceptions.md R132). -/
theorem exec_keeps_flag {i : Instr} {s t : State} {j : Nat} (h : exec i s = .next t)
    (hj : s.regs.status.getLsbD j = true) : t.regs.status.getLsbD j = true := by
  rcases exec_cases i s with ⟨-, he⟩ | ⟨-, -, he⟩ | ⟨-, -, he⟩ | ⟨-, -, -, he⟩
  all_goals
    rw [he] at h
    cases h
  · exact hj
  · rwa [State.setRegs_regs, commandRegs_status]
  · exact raiseError_keeps_flag .len hj
  · exact raiseError_keeps_flag .tap hj

/-- Of the write actions only STATUS's clears a flag, one that is written as 1. -/
theorem writeReg_clears_flag {r : Reg} {v : Word} {s t : State} {j : Nat} (h : writeReg r v s = .next t)
    (hs : s.regs.status.getLsbD j = true) (ht : t.regs.status.getLsbD j = false) :
    r = .status ∧ v.getLsbD j = true := by
  have hkept : t.regs.status.getLsbD j = true → r = .status ∧ v.getLsbD j = true := by
    intro hset
    cases hset.symm.trans ht
  cases r with
  | cmd =>
    rcases writeCmd_cases v s with ⟨i, -, he⟩ | ⟨why, -, he⟩
    · exact hkept (exec_keeps_flag (he.symm.trans h) hs)
    · cases he.symm.trans h
      exact hkept (raiseError_keeps_flag .cmd hs)
  | status =>
    cases h
    rw [writeStatus_status, getLsbD_clearFlags, hs, Bool.true_and, Bool.not_eq_false'] at ht
    exact ⟨rfl, ht⟩
  | len => cases h; exact hkept hs
  | taps => cases h; exact hkept hs
  | state => cases h; exact hkept hs
  | id => cases h; exact hkept (raiseError_keeps_flag .acc hs)
  | dout => cases h; exact hkept (raiseError_keeps_flag .acc hs)

/-- An access clears a flag only as a legal write of STATUS (10_state.md R24). -/
theorem busAccess_clears_flag {a : BusAccess} {s t : State} {j : Nat} (h : busAccess a s = .next t)
    (hs : s.regs.status.getLsbD j = true) (ht : t.regs.status.getLsbD j = false) :
    a.kind = .write ∧ accessTarget a = some .status ∧ a.wdata.getLsbD j = true := by
  rcases busAccess_cases a s with ⟨-, he⟩ | ⟨r, -, -, he⟩ | ⟨r, u, hr, hk, -, -, hu, he⟩
  all_goals
    rw [he] at h
    cases h
  · cases (raiseError_keeps_flag .acc hs).symm.trans ht
  · cases hs.symm.trans ht
  · obtain ⟨rfl, hv⟩ := writeReg_clears_flag hu hs ht
    exact ⟨hk, hr, hv⟩

/-- An access sets a flag only by the error it has (60_exceptions.md R132). -/
theorem busAccess_sets_flag {a : BusAccess} {s t : State} {j : Nat} (h : busAccess a s = .next t)
    (hs : s.regs.status.getLsbD j = false) (ht : t.regs.status.getLsbD j = true) :
    ∃ k, errorOf s a = some k ∧ errCode k = j := by
  obtain ⟨u, hu, hrec⟩ := busAccess_records a s
  cases h.symm.trans hu
  cases herr : errorOf s a with
  | none =>
    rw [herr] at hrec
    cases (hrec j ht).symm.trans hs
  | some k =>
    rw [herr] at hrec
    rw [hrec, raiseError_status, getLsbD_raiseFlag, hs, Bool.false_or, decide_eq_true_eq] at ht
    exact ⟨k, rfl, ht⟩

/-- Settles O28: the flags of an access by the two lemmas above; a reset clears all, a release none. -/
theorem flagsAreStickyAndSetOnlyByTheirError : Obligations.FlagsAreStickyAndSetOnlyByTheirError := by
  intro s t e rest j hin h hpower
  rcases step_cases h with ⟨hnil, -⟩ | ⟨a, es, hev, -, ha⟩ | ⟨es, hev, rfl⟩ | ⟨es, hev, rfl⟩ | ⟨w, es, hev, -, rfl⟩
    | ⟨es, hev, -⟩
  · cases hin.symm.trans hnil
  all_goals obtain ⟨rfl, rfl⟩ := List.cons.inj (hin.symm.trans hev)
  · constructor
    · intro hs ht
      obtain ⟨hk, hr, hv⟩ := busAccess_clears_flag ha hs ht
      obtain ⟨hlegal, ho⟩ := (accessTarget_eq_some_iff a _).1 hr
      exact .inl ⟨a, rfl, hk, congrArg Fin.val ho, hlegal, hv⟩
    · intro hs ht
      obtain ⟨k, hk, hj⟩ := busAccess_sets_flag ha hs ht
      exact ⟨a, k, rfl, hk, hj⟩
  · refine ⟨fun _ _ => .inr (.inl rfl), fun _ ht => ?_⟩
    simp [Regs.reset] at ht
  · rw [State.releaseReset_regs]
    refine ⟨fun hs ht => ?_, fun hs ht => ?_⟩
    · cases hs.symm.trans ht
    · cases hs.symm.trans ht
  · refine ⟨fun _ _ => .inr (.inr ⟨w, rfl⟩), fun _ ht => ?_⟩
    simp [Regs.reset] at ht
  · exact absurd rfl hpower

/-! ### Who writes the other registers -/

/-- A word that runs a stepping command whose checks pass. -/
def RunsCommand (w : Word) (s : State) : Prop :=
  s.Configured ∧ ∃ i, decode w = .ok i ∧ isStepping i = true

/-- The registers that a write of v at r may change in s (10_state.md R28, R31). -/
structure ChangesOnlyIts (r : Reg) (v : Word) (s t : State) : Prop where
  len : t.regs.len ≠ s.regs.len → r = .len
  taps : t.regs.taps ≠ s.regs.taps → r = .taps
  lfsr : t.regs.lfsr ≠ s.regs.lfsr → r = .state ∨ (r = .cmd ∧ RunsCommand v s)
  dout : t.regs.dout ≠ s.regs.dout → r = .cmd ∧ RunsCommand v s

/-- A write that changes STATUS alone changes none of the four. -/
theorem ChangesOnlyIts.of_status (r : Reg) (v : Word) (s : State) (f : BitVec 4) :
    ChangesOnlyIts r v s (s.withStatus f) where
  len h := absurd rfl h
  taps h := absurd rfl h
  lfsr h := absurd rfl h
  dout h := absurd rfl h

theorem writeCmd_changesOnlyIts {v : Word} {s t : State} (h : writeCmd v s = .next t) :
    ChangesOnlyIts .cmd v s t := by
  rcases writeCmd_cases v s with ⟨i, hi, he⟩ | ⟨why, -, he⟩
  · rw [he] at h
    rcases exec_cases i s with ⟨-, hx⟩ | ⟨hstepping, hc, hx⟩ | ⟨-, -, hx⟩ | ⟨-, -, -, hx⟩
    all_goals
      rw [hx] at h
      cases h
    · exact .of_status .cmd v s s.regs.status
    · exact {
        len := fun hne => absurd (commandRegs_len _ _ _) hne
        taps := fun hne => absurd (commandRegs_taps _ _ _) hne
        lfsr := fun _ => .inr ⟨rfl, hc, i, hi, hstepping⟩
        dout := fun _ => ⟨rfl, hc, i, hi, hstepping⟩ }
    · exact .of_status .cmd v s _
    · exact .of_status .cmd v s _
  · cases he.symm.trans h
    exact .of_status .cmd v s _

theorem writeReg_changesOnlyIts {r : Reg} {v : Word} {s t : State} (h : writeReg r v s = .next t) :
    ChangesOnlyIts r v s t := by
  cases r with
  | cmd => exact writeCmd_changesOnlyIts h
  | status => cases h; exact .of_status .status v s _
  | id => cases h; exact .of_status .id v s _
  | dout => cases h; exact .of_status .dout v s _
  | len =>
    cases h
    exact ⟨fun _ => rfl, fun hne => absurd rfl hne, fun hne => absurd rfl hne, fun hne => absurd rfl hne⟩
  | taps =>
    cases h
    exact ⟨fun hne => absurd rfl hne, fun _ => rfl, fun hne => absurd rfl hne, fun hne => absurd rfl hne⟩
  | state =>
    cases h
    exact ⟨fun hne => absurd rfl hne, fun hne => absurd rfl hne, fun _ => .inl rfl, fun hne => absurd rfl hne⟩

/-- An access keeps LEN, TAPS, STATE and DOUT, or it is a legal write and changes its own register only. -/
theorem busAccess_changes {a : BusAccess} {s t : State} (h : busAccess a s = .next t) :
    (t.regs.len = s.regs.len ∧ t.regs.taps = s.regs.taps ∧ t.regs.lfsr = s.regs.lfsr ∧ t.regs.dout = s.regs.dout)
    ∨ ∃ r, a.kind = .write ∧ ¬ AccessIllegal a ∧ a.off = regOffset r ∧ ChangesOnlyIts r a.wdata s t := by
  rcases busAccess_cases a s with ⟨-, he⟩ | ⟨r, -, -, he⟩ | ⟨r, u, hr, hk, -, -, hu, he⟩
  all_goals
    rw [he] at h
    cases h
  · exact .inl ⟨rfl, rfl, rfl, rfl⟩
  · exact .inl ⟨rfl, rfl, rfl, rfl⟩
  · obtain ⟨hlegal, ho⟩ := (accessTarget_eq_some_iff a r).1 hr
    obtain ⟨hlen, htaps, hlfsr, hdout⟩ := writeReg_changesOnlyIts hu
    exact .inr ⟨r, hk, hlegal, ho, hlen, htaps, hlfsr, hdout⟩

/-- Settles O29: `busAccess_changes`, a release of reset keeping every register. -/
theorem registersHaveOnlyTheirWriters : Obligations.RegistersHaveOnlyTheirWriters := by
  intro s t e rest hin h hpower hassert habandon
  rcases step_cases h with ⟨hnil, -⟩ | ⟨a, es, hev, -, ha⟩ | ⟨es, hev, -⟩ | ⟨es, hev, rfl⟩ | ⟨w, es, hev, -, -⟩
    | ⟨es, hev, -⟩
  · cases hin.symm.trans hnil
  all_goals obtain ⟨rfl, rfl⟩ := List.cons.inj (hin.symm.trans hev)
  · rcases busAccess_changes ha with ⟨hlen, htaps, hlfsr, hdout⟩ | ⟨r, hk, hlegal, ho, hchanges⟩
    · exact ⟨fun hne => absurd hlen hne, fun hne => absurd htaps hne, fun hne => absurd hlfsr hne,
        fun hne => absurd hdout hne⟩
    · have hoff : a.off.val = (regOffset r).val := congrArg Fin.val ho
      refine ⟨fun hne => ?_, fun hne => ?_, fun hne => ?_, fun hne => ?_⟩
      · obtain rfl := hchanges.len hne
        exact ⟨a, rfl, hk, hlegal, hoff⟩
      · obtain rfl := hchanges.taps hne
        exact ⟨a, rfl, hk, hlegal, hoff⟩
      · rcases hchanges.lfsr hne with rfl | ⟨rfl, hc, hi⟩
        · exact ⟨a, rfl, hk, hlegal, .inl hoff⟩
        · exact ⟨a, rfl, hk, hlegal, .inr ⟨hoff, hc, hi⟩⟩
      · obtain ⟨rfl, hc, hi⟩ := hchanges.dout hne
        exact ⟨a, rfl, hk, hlegal, hoff, hc, hi⟩
  · exact absurd rfl hassert
  · rw [State.releaseReset_regs]
    exact ⟨fun hne => absurd rfl hne, fun hne => absurd rfl hne, fun hne => absurd rfl hne, fun hne => absurd rfl hne⟩
  · exact absurd rfl (habandon w)
  · exact absurd rfl hpower

/-! ### Byte lanes -/

theorem windowOffset_laneAddress {off : Fin 32} {j : Nat} (h : off.val + j < 32) :
    windowOffset (laneAddress off j) = some ⟨off.val + j, h⟩ := by
  have hbase : Config.base ≤ laneAddress off j := by rw [laneAddress]; omega
  have hdist : laneAddress off j - Config.base = off.val + j := by rw [laneAddress]; omega
  simp only [windowOffset, if_pos hbase, hdist, dif_pos h]

/-- Settles O37: a lane is a slice of the word, and every register ends below the window's end. -/
theorem byteLanesAreLittleEndian : Obligations.ByteLanesAreLittleEndian := by
  constructor
  · intro w j b hb
    rw [byteLane, BitVec.getLsbD_extractLsb', decide_eq_true hb, Bool.true_and]
  · intro r j hj
    have hlast : (regOffset r).val ≤ 0x18 := by cases r <;> decide
    refine ⟨rfl, ?_⟩
    rw [windowOffset_laneAddress (by omega : (regOffset r).val + j < 32)]
    rfl

end Sys2Proof.Machine
end

section
/-! PROOFS. The family other: runs of accesses. What the host's further events are plays no part in an access, so a run
is one access after another on the block alone (20_memory.md R57, R60; 40_config.md R85, R92; 60_exceptions.md R139). -/

namespace Sys2Proof.Machine

/-! ### An access does not look at the events to come -/

theorem exec_withInputs {i : Instr} {s t : State} (h : exec i s = .next t) (es : List HostEvent) :
    exec i (s.withInputs es) = .next (t.withInputs es) := by
  rcases exec_cases i s with ⟨rfl, he⟩ | ⟨-, hc, he⟩ | ⟨hi, hlen, he⟩ | ⟨hi, hlen, htaps, he⟩
  all_goals
    rw [he] at h
    cases h
  · rfl
  · exact exec_of_configured i (s := s.withInputs es) hc
  · exact (exec_stepping i hi _).trans (stepping_of_not_lenOk _ hlen)
  · exact (exec_stepping i hi _).trans (stepping_of_not_tapsOk _ hlen htaps)

theorem writeReg_withInputs {r : Reg} {v : Word} {s t : State} (h : writeReg r v s = .next t)
    (es : List HostEvent) : writeReg r v (s.withInputs es) = .next (t.withInputs es) := by
  cases r with
  | cmd =>
    cases hw : decode v with
    | ok i =>
      rw [writeReg, writeCmd_of_ok hw] at h ⊢
      exact exec_withInputs h es
    | error why =>
      rw [writeReg, writeCmd_of_error hw] at h ⊢
      cases h
      rfl
  | status => cases h; rfl
  | len => cases h; rfl
  | taps => cases h; rfl
  | state => cases h; rfl
  | id => cases h; rfl
  | dout => cases h; rfl

theorem busAccess_withInputs {a : BusAccess} {s t : State} (h : busAccess a s = .next t) (es : List HostEvent) :
    busAccess a (s.withInputs es) = .next (t.withInputs es) := by
  rcases busAccess_cases a s with ⟨ha, he⟩ | ⟨r, hr, hk, he⟩ | ⟨r, u, hr, hk, -, -, hu, he⟩
  all_goals
    rw [he] at h
    cases h
  · exact busAccess_of_illegal ha _
  · rw [busAccess_read hr hk, readReg_withInputs]
    rfl
  · rw [busAccess_write hr hk, writeReg_withInputs hu es]
    rfl

/-! ### One access of a run -/

/-- A run begins with the host's first access, on the block without the further ones. -/
theorem run_driven_cons {a : BusAccess} {s t : State} (hp : s.phase = .running) (h : busAccess a s = .next t)
    (as : List BusAccess) (k : Nat) : run (k + 1) (s.driven (a :: as)) = run k (t.driven as) := by
  have hinputs : t.inputs = s.inputs := by
    obtain ⟨regs, r, he, -⟩ := busAccess_answers a s
    cases he.symm.trans h
    rfl
  have hstep : step (s.driven (a :: as)) = .next (t.driven as) := by
    rw [State.driven, State.driven, hinputs, ← busAccess_withInputs h]
    exact step_access (s := s.driven (a :: as)) hp rfl
  exact run_succ_of_step hstep k

/-- A block whose host makes no further access is as it was. -/
theorem State.driven_nil (s : State) : s.driven [] = s := rfl

theorem busAccess_wrAccess {r : Reg} {v : Word} {s t : State} (hi : r ≠ .id) (hd : r ≠ .dout)
    (h : writeReg r v s = .next t) : busAccess (wrAccess r v) s = .next (t.respond (.write .okay)) := by
  rw [busAccess_write (accessTarget_wrAccess r v hi hd) rfl]
  exact congrArg (answering (.write .okay)) h

theorem busAccess_rdAccess (r : Reg) (s : State) :
    busAccess (rdAccess r) s = .next (s.respond (.read .okay (readReg r s))) :=
  busAccess_read (accessTarget_rdAccess r) rfl s

/-- A command whose checks pass, written to CMD (30_encoding.md R77). -/
theorem busAccess_commandAccess (i : Instr) {s : State} (h : s.Configured) :
    busAccess (commandAccess i) s
      = .next ((s.setRegs (commandRegs i s.regs.len.toNat s.regs)).respond (.write .okay)) := by
  refine busAccess_wrAccess (by decide) (by decide) ?_
  rw [writeReg, writeCmd_of_ok (decode_encode i), exec_of_configured i h]

/-! ### Repeated accesses -/

@[simp] theorem readReg_respond (r : Reg) (s : State) (q : BusResponse) : readReg r (s.respond q) = readReg r s := by
  cases r <;> rfl

/-- Clearing flags again clears no others (40_config.md R89). -/
theorem clearFlags_idem (status : BitVec 4) (v : Word) :
    clearFlags (clearFlags status v) v = clearFlags status v := by
  rw [clearFlags, clearFlags, BitVec.and_assoc, BitVec.and_self]

/-- Repeating a write that is no command leaves the registers as the first left them (20_memory.md R57). -/
theorem writeReg_twice {r : Reg} (v : Word) (s : State) (q : BusResponse)
    (hr : r = .len ∨ r = .taps ∨ r = .state ∨ r = .status) :
    ∃ t u, writeReg r v s = .next t ∧ writeReg r v (t.respond q) = .next u ∧ u.regs = t.regs := by
  rcases hr with rfl | rfl | rfl | rfl
  · exact ⟨_, _, rfl, rfl, rfl⟩
  · exact ⟨_, _, rfl, rfl, rfl⟩
  · exact ⟨_, _, rfl, rfl, rfl⟩
  · refine ⟨_, _, rfl, rfl, ?_⟩
    exact congrArg (fun f => { s.regs with status := f }) (clearFlags_idem s.regs.status v)

/-- Two accesses of a running block, in order. -/
theorem run_two {a b : BusAccess} {s t u : State} (hp : s.phase = .running) (ha : busAccess a s = .next t)
    (hb : busAccess b t = .next u) : run 2 (s.driven [a, b]) = .next u := by
  have hpt : t.phase = .running := by rw [(busAccess_phase_nmax ha).1, hp]
  rw [run_driven_cons hp ha, run_driven_cons hpt hb, State.driven_nil]
  rfl

theorem run_one {a : BusAccess} {s t : State} (hp : s.phase = .running) (ha : busAccess a s = .next t) :
    run 1 (s.driven [a]) = .next t := by
  rw [run_driven_cons hp ha, State.driven_nil]
  rfl

/-- Settles O30: a read changes no register, a register write is idempotent, and a command runs each time. -/
theorem onlyCommandWritesAccumulate : Obligations.OnlyCommandWritesAccumulate := by
  intro s hp
  refine ⟨?_, ?_, ?_⟩
  · intro r
    refine ⟨_, readReg r s, run_two hp (busAccess_rdAccess r s) (busAccess_rdAccess r _), ?_, rfl⟩
    rw [readReg_respond]
    rfl
  · intro r v hr
    obtain ⟨t, u, ht, hu, hregs⟩ := writeReg_twice v s (.write .okay) hr
    have hi : r ≠ .id := by rcases hr with rfl | rfl | rfl | rfl <;> decide
    have hd : r ≠ .dout := by rcases hr with rfl | rfl | rfl | rfl <;> decide
    have hfirst := busAccess_wrAccess hi hd ht
    exact ⟨_, _, run_one hp hfirst, run_two hp hfirst (busAccess_wrAccess hi hd hu), hregs⟩
  · intro hc
    exact ⟨_, run_two hp (busAccess_commandAccess .step hc)
      (busAccess_commandAccess .step (configured_commandRegs .step hc)), rfl⟩

/-! ### A read after a write -/

/-- A read after a write of one register answers what the write left in it (20_memory.md R60). -/
theorem run_write_read {r : Reg} {v : Word} {s t : State} (hp : s.phase = .running) (hi : r ≠ .id)
    (hd : r ≠ .dout) (h : writeReg r v s = .next t) :
    ∃ u, run 2 (s.driven [wrAccess r v, rdAccess r]) = .next u
      ∧ u.outputs = .read .okay (readReg r t) :: .write .okay :: s.outputs := by
  refine ⟨_, run_two hp (busAccess_wrAccess hi hd h) (busAccess_rdAccess r _), ?_⟩
  rw [writeReg_eq_setRegs h, readReg_respond]
  rfl

/-- LEN's six bits, zero-extended (10_state.md R25). -/
theorem setWidth_extractLsb'_len (v : Word) : (v.extractLsb' 0 6).setWidth 32 = v &&& 0x3F#32 := by
  change _ = lowBits 6 v
  apply BitVec.eq_of_getLsbD_eq
  intro i hi
  rw [BitVec.getLsbD_setWidth, BitVec.getLsbD_extractLsb', getLsbD_lowBits, decide_eq_true hi, Bool.true_and,
    Nat.zero_add, Bool.and_comm]

/-- The flags not selected, zero-extended (40_config.md R89). -/
theorem setWidth_clearFlags (status : BitVec 4) (v : Word) :
    (clearFlags status v).setWidth 32 = status.setWidth 32 &&& ~~~ v := by
  apply BitVec.eq_of_getLsbD_eq
  intro i hi
  simp [getLsbD_clearFlags, hi]

/-- Settles O31: the read value of each register after its write action. -/
theorem readAfterWriteReturnsWhatWasKept : Obligations.ReadAfterWriteReturnsWhatWasKept := by
  intro s v hp
  refine ⟨?_, ?_, ?_, ?_, ?_⟩
  · rw [← setWidth_extractLsb'_len]
    exact run_write_read (r := .len) hp (by decide) (by decide) rfl
  · exact run_write_read (r := .taps) hp (by decide) (by decide) rfl
  · exact run_write_read (r := .state) hp (by decide) (by decide) rfl
  · rw [← setWidth_clearFlags]
    exact run_write_read (r := .status) hp (by decide) (by decide) rfl
  · obtain ⟨t, ht⟩ := writeReg_isNext .cmd v s
    exact run_write_read (r := .cmd) hp (by decide) (by decide) ht

/-! ### A new length -/

/-- Settles O33: a shift clears the bits from n up, a write of LEN keeps STATE, and the next shift reads it below the
new length. -/
theorem lengthChangeTakesTheBitsAsTheyStand : Obligations.LengthChangeTakesTheBitsAsTheyStand := by
  intro s v hp hc
  have hclear : ∀ i, s.regs.len.toNat ≤ i →
      (shiftWord s.regs.len.toNat s.regs.taps s.regs.lfsr).getLsbD i = false :=
    (lowBits_eq_self_iff _ _).1 (lowBits_shiftWord _ _ _ hc.one_le hc.le_32)
  have hwrite := busAccess_wrAccess (r := .len) (v := v) (s := s.setRegs (stepRegs s.regs.len.toNat s.regs))
    (by decide) (by decide) rfl
  refine ⟨_, _, exec_of_configured .step hc, run_one hp hwrite, rfl, hclear, fun hcu => ?_⟩
  refine ⟨_, exec_of_configured .step hcu, fun i _ => ?_⟩
  rw [State.setRegs_regs, commandRegs, stepRegs_lfsr, getLsbD_shiftWord _ _ _ hcu.one_le hcu.le_32,
    feedback_eq_tappedParity _ _ _ hcu.le_32]
  refine if_congr Iff.rfl ?_ rfl
  by_cases hi : i + 1 < s.regs.len.toNat
  · rw [decide_eq_true hi, Bool.true_and]
    rfl
  · rw [decide_eq_false hi, Bool.false_and]
    exact hclear (i + 1) (Nat.not_lt.1 hi)

/-! ### A failed command issued again -/

/-- A command whose checks fail changes STATUS alone (10_state.md R29). -/
theorem exec_of_not_configured {i : Instr} {s t : State} (hc : ¬ s.Configured) (h : exec i s = .next t) :
    ∃ f, t = s.withStatus f := by
  rcases exec_cases i s with ⟨-, he⟩ | ⟨-, hc', -⟩ | ⟨-, -, he⟩ | ⟨-, -, -, he⟩
  · exact ⟨s.regs.status, Host.Outcome.next.inj (h.symm.trans he)⟩
  · exact absurd hc' hc
  · exact ⟨_, Host.Outcome.next.inj (h.symm.trans he)⟩
  · exact ⟨_, Host.Outcome.next.inj (h.symm.trans he)⟩

/-- CLRERR clears every flag (30_encoding.md R78). -/
theorem clearFlags_all (status : BitVec 4) : clearFlags status 0x0000000F#32 = 0#4 := by
  revert status
  decide

/-- After CLRERR nothing is left of the flags there were. -/
theorem writeStatus_all_withStatus (s : State) (f : BitVec 4) :
    writeStatus 0x0000000F#32 (s.withStatus f) = writeStatus 0x0000000F#32 s := by
  simp only [writeStatus, State.withStatus, State.setRegs_regs, clearFlags_all]
  rfl

/-- Settles O36: the failed command left a flag only, and CLRERR leaves the same block with and without it. -/
theorem failedCommandCanBeReissued : Obligations.FailedCommandCanBeReissued := by
  intro s u i n m hp hc h
  obtain ⟨f, rfl⟩ := exec_of_not_configured hc h
  have hclear : ∀ t : State, busAccess (wrAccess .status 0x0000000F#32) t
      = .next ((writeStatus 0x0000000F#32 t).respond (.write .okay)) := fun t =>
    busAccess_wrAccess (r := .status) (by decide) (by decide) rfl
  rw [run_driven_cons (s := s.withStatus f) hp (hclear _), run_driven_cons hp (hclear s), writeStatus_all_withStatus]

/-! ### The three construction writes -/

/-- A block after the three construction writes, each cut to its register (40_config.md R85). -/
def State.construct (s : State) (e : Engine) : State :=
  { s with
    outputs := [.write .okay, .write .okay, .write .okay] ++ s.outputs
    regs := { s.regs with
      taps := lowBits s.nmax.val (tapMask e.taps)
      lfsr := lowBits s.nmax.val (packBits e.state)
      len := BitVec.ofNat 6 e.state.length } }

/-- Three register writes of a running block, before any further access. -/
theorem run_three_writes {p q r : Reg} {vp vq vr : Word} {s t u x : State} (hp : s.phase = .running)
    (hwritable : ∀ w ∈ [p, q, r], w ≠ .id ∧ w ≠ .dout) (ht : writeReg p vp s = .next t)
    (hu : writeReg q vq (t.respond (.write .okay)) = .next u)
    (hx : writeReg r vr (u.respond (.write .okay)) = .next x) (as : List BusAccess) (k : Nat) :
    run (3 + k) (s.driven (wrAccess p vp :: wrAccess q vq :: wrAccess r vr :: as))
      = run k ((x.respond (.write .okay)).driven as) := by
  obtain ⟨hpi, hpd⟩ := hwritable p (by simp)
  obtain ⟨hqi, hqd⟩ := hwritable q (by simp)
  obtain ⟨hri, hrd⟩ := hwritable r (by simp)
  have hfirst := busAccess_wrAccess hpi hpd ht
  have hsecond := busAccess_wrAccess hqi hqd hu
  have hpt : (t.respond (.write .okay)).phase = .running := (busAccess_phase_nmax hfirst).1.trans hp
  have hpu : (u.respond (.write .okay)).phase = .running := (busAccess_phase_nmax hsecond).1.trans hpt
  rw [show 3 + k = k + 1 + 1 + 1 by omega, run_driven_cons hp hfirst, run_driven_cons hpt hsecond,
    run_driven_cons hpu (busAccess_wrAccess hri hrd hx)]

/-- LEN's cut of a length that is written as a word (40_config.md R86). -/
theorem extractLsb'_ofNat_len (n : Nat) : (BitVec.ofNat 32 n).extractLsb' 0 6 = BitVec.ofNat 6 n := by
  apply BitVec.eq_of_getLsbD_eq
  intro i hi
  rw [BitVec.getLsbD_extractLsb', BitVec.getLsbD_ofNat, BitVec.getLsbD_ofNat, Nat.zero_add, decide_eq_true hi,
    decide_eq_true (Nat.lt_trans hi (by decide)), Bool.true_and]

/-- The six orders of three items. -/
theorem eq_of_perm_triple {α : Type} {l : List α} {a b c : α} (h : l.Perm [a, b, c]) :
    l = [a, b, c] ∨ l = [b, a, c] ∨ l = [b, c, a] ∨ l = [a, c, b] ∨ l = [c, a, b] ∨ l = [c, b, a] := by
  simpa [List.permutations'] using List.mem_permutations'.2 h

/-- Settles O32: each write sets its own register, so the six orders give the same state. -/
theorem constructionInAnyOrder : Obligations.ConstructionInAnyOrder := by
  intro s e accesses hp hperm
  rw [← extractLsb'_ofNat_len]
  rcases eq_of_perm_triple hperm with rfl | rfl | rfl | rfl | rfl | rfl
  all_goals
    refine (run_three_writes hp ?_ rfl rfl rfl [] 0).trans rfl
    decide

/-- The construction writes in the host's order, before any further access. -/
theorem run_configAccesses {s : State} (e : Engine) (hp : s.phase = .running) (as : List BusAccess) (k : Nat) :
    run (3 + k) (s.driven (configAccesses e ++ as)) = run k ((s.construct e).driven as) := by
  have hconstruct : s.construct e = { s.construct e with
      regs := { (s.construct e).regs with len := (BitVec.ofNat 32 e.state.length).extractLsb' 0 6 } } := by
    rw [extractLsb'_ofNat_len]
    rfl
  rw [hconstruct]
  exact run_three_writes (p := .taps) (q := .state) (r := .len) hp (by decide) rfl rfl rfl as k

/-- For a seed and a tap set that fit, nothing is cut: the block holds the engine, and STATE is the packed seed
(40_config.md R93). -/
theorem State.construct_lfsr (s : State) {e : Engine} (hf : e.fits s.nmax = true) :
    (s.construct e).regs.lfsr = packBits e.state :=
  lowBits_packBits (Engine.le_nmax_of_fits hf)

theorem State.construct_holds (s : State) {e : Engine} (hf : e.fits s.nmax = true) : (s.construct e).Holds e := by
  obtain ⟨h1, hle, -, hlt⟩ := (Engine.fits_iff s.nmax e).1 hf
  refine ⟨?_, ?_, ?_⟩
  · exact Nat.mod_eq_of_lt (Nat.lt_of_le_of_lt (Engine.le_32_of_fits hf) (by decide))
  · rw [s.construct_lfsr hf, lowBits_packBits (Nat.le_refl _)]
  · exact lowBits_tapMask fun t ht => Nat.lt_of_lt_of_le (hlt t ht) hle

end Sys2Proof.Machine
end

section
/-! PROOFS. The family other: the engine read out over the bus, and the host assembly (30_encoding.md R77, R78;
40_config.md R85, R93; 41_lfsr.md R105; 42_keystream.md R120; log 15, log 16). -/

namespace Sys2Proof.Machine

/-! ### Commands, each followed by a read of DOUT -/

/-- Each command and a read of DOUT after it. -/
def readOutAccesses (cs : List Instr) : List BusAccess :=
  cs.flatMap fun c => [commandAccess c, rdAccess .dout]

theorem bitAccesses_eq (k : Nat) : bitAccesses k = readOutAccesses (List.replicate k .step) := by
  rw [bitAccesses, readOutAccesses, List.flatMap, List.map_replicate]

theorem cipherAccesses_eq (payload : List Byte) : cipherAccesses payload = readOutAccesses (payload.map .cipher) := by
  rw [cipherAccesses, readOutAccesses, List.flatMap_map]

/-- What the commands give for DOUT, each from its share of the engine's bit stream. -/
def Engine.readOut : List Instr → Engine → List Byte
  | [], _ => []
  | c :: cs, e => commandByte c (e.generateSequence (shiftCount c)) :: Engine.readOut cs (e.after (shiftCount c))

/-- One bit as a byte. -/
theorem byteOfBits_singleton (b : Bool) : byteOfBits [b] = if b then 1#8 else 0#8 := by
  cases b <;> rfl

/-- STEPs read out `generate_sequence` (41_lfsr.md R105). -/
theorem Engine.readOut_steps (k : Nat) (e : Engine) :
    e.readOut (List.replicate k .step) = (e.generateSequence k).map fun b => if b then 1#8 else 0#8 := by
  induction k generalizing e with
  | zero => rfl
  | succ k ih =>
    rw [List.replicate_succ, Engine.readOut, Engine.generateSequence, List.map_cons, ← byteOfBits_singleton]
    exact congrArg (_ :: ·) (ih e.shift)

/-- The first byte of a stream, and the bytes after it (42_keystream.md R115). -/
theorem streamByte_generateSequence_zero (k : Nat) (e : Engine) :
    streamByte (e.generateSequence (8 + k)) 0 = byteOfBits (e.generateSequence 8) := by
  rw [streamByte, Nat.mul_zero, List.drop_zero, Engine.take_generateSequence]

theorem streamByte_generateSequence_succ (k i : Nat) (e : Engine) :
    streamByte (e.generateSequence (8 + k)) (i + 1) = streamByte ((e.after 8).generateSequence k) i := by
  rw [streamByte, Nat.mul_succ, Nat.add_comm, ← List.drop_drop, Engine.drop_generateSequence, streamByte]

/-- CIPHERs read out `cipher_file` (42_keystream.md R120). -/
theorem Engine.readOut_ciphers (payload : List Byte) (e : Engine) :
    e.readOut (payload.map .cipher) = e.cipherPayload payload := by
  induction payload generalizing e with
  | nil => rfl
  | cons p ps ih =>
    rw [List.map_cons, Engine.readOut, ih, Engine.cipherPayload, Engine.cipherPayload, List.mapIdx_cons,
      List.length_cons, Nat.mul_succ, Nat.add_comm, streamByte_generateSequence_zero]
    simp only [streamByte_generateSequence_succ]
    rfl

/-- A block after a command whose checks pass and a read of DOUT (20_memory.md R52, R53). -/
def State.afterReadOut (s : State) (c : Instr) : State :=
  ((s.setRegs (commandRegs c s.regs.len.toNat s.regs)).respond (.write .okay)).respond
    (.read .okay ((commandRegs c s.regs.len.toNat s.regs).dout.setWidth 32))

theorem run_command_read {s : State} (c : Instr) (hp : s.phase = .running) (hc : s.Configured)
    (as : List BusAccess) (k : Nat) :
    run (k + 1 + 1) (s.driven (commandAccess c :: rdAccess .dout :: as)) = run k ((s.afterReadOut c).driven as) := by
  have hrunning : ((s.setRegs (commandRegs c s.regs.len.toNat s.regs)).respond (.write .okay)).phase = .running := hp
  rw [run_driven_cons hp (busAccess_commandAccess c hc)]
  exact run_driven_cons hrunning (busAccess_rdAccess .dout _) as k

/-- What a command read out adds to the answers of a block that holds an engine. -/
theorem State.Holds.afterReadOut_outputs {s : State} {e : Engine} {c : Instr} (h : s.Holds e)
    (hf : e.fits s.nmax = true) (hc : isStepping c = true) :
    (s.afterReadOut c).outputs.reverse
      = s.outputs.reverse ++ doutAnswers [commandByte c (e.generateSequence (shiftCount c))] := by
  rw [← h.dout_of_command hf hc, State.afterReadOut]
  simp [doutAnswers]

theorem doutAnswers_append (bs cs : List Byte) : doutAnswers (bs ++ cs) = doutAnswers bs ++ doutAnswers cs :=
  List.flatMap_append

/-- Commands read out of a block that holds an engine: the host gets their shares of its bit stream, and STATE makes
all their shifts. -/
theorem run_readOut (cs : List Instr) {s : State} {e : Engine} (hp : s.phase = .running)
    (hf : e.fits s.nmax = true) (h : s.Holds e) (hcs : ∀ c ∈ cs, isStepping c = true) :
    ∃ t, run (2 * cs.length) (s.driven (readOutAccesses cs)) = .next t
      ∧ t.phase = .running ∧ t.nmax = s.nmax ∧ t.inputs = s.inputs
      ∧ t.outputs.reverse = s.outputs.reverse ++ doutAnswers (e.readOut cs)
      ∧ t.regs.lfsr = shifts s.regs.len.toNat s.regs.taps (cs.map shiftCount).sum s.regs.lfsr := by
  induction cs generalizing s e with
  | nil => exact ⟨s, rfl, hp, rfl, rfl, by simp [Engine.readOut, doutAnswers], rfl⟩
  | cons c cs ih =>
    obtain ⟨hc, hcs⟩ := List.forall_mem_cons.1 hcs
    obtain ⟨t, hrun, hphase, hn, hin, hout, hlfsr⟩ :=
      ih (s := s.afterReadOut c) hp (Engine.fits_after hf (shiftCount c)) (h.after_command hf c) hcs
    refine ⟨t, ?_, hphase, hn, hin, ?_, ?_⟩
    · rw [← hrun]
      exact run_command_read c hp (h.configured hf) (readOutAccesses cs) (2 * cs.length)
    · rw [hout, h.afterReadOut_outputs hf hc, List.append_assoc, ← doutAnswers_append]
      rfl
    · rw [hlfsr, List.map_cons, List.sum_cons, shifts_add, ← commandRegs_lfsr]
      simp [State.afterReadOut]

/-- The construction, and commands read out after it: `new(T, s)` and its bit stream (40_config.md R93). -/
theorem run_construct_readOut (cs : List Instr) {s : State} {e : Engine} (hp : s.phase = .running)
    (hf : e.fits s.nmax = true) (hcs : ∀ c ∈ cs, isStepping c = true) :
    ∃ t, run (3 + 2 * cs.length) (s.driven (configAccesses e ++ readOutAccesses cs)) = .next t
      ∧ t.phase = .running ∧ t.nmax = s.nmax ∧ t.inputs = s.inputs
      ∧ t.outputs.reverse = s.outputs.reverse ++ [.write .okay, .write .okay, .write .okay]
          ++ doutAnswers (e.readOut cs)
      ∧ t.regs.lfsr = packBits (e.after (cs.map shiftCount).sum).state := by
  have hholds := s.construct_holds hf
  obtain ⟨t, hrun, hphase, hn, hin, hout, hlfsr⟩ := run_readOut cs (s := s.construct e) hp hf hholds hcs
  refine ⟨t, (run_configAccesses e hp _ _).trans hrun, hphase, hn, hin, ?_, ?_⟩
  · rw [hout, State.construct]
    simp
  · rw [hlfsr, hholds.1, hholds.2.2, s.construct_lfsr hf, shifts_packBits hf]

/-- Settles O21: k STEPs read out. -/
theorem stepsReadOutGenerateSequence : Obligations.StepsReadOutGenerateSequence := by
  intro s e k hp hf
  have hsteps : ∀ c ∈ List.replicate k Instr.step, isStepping c = true := by
    intro c hc
    rw [List.eq_of_mem_replicate hc]
    rfl
  obtain ⟨t, hrun, -, -, hin, hout, hlfsr⟩ := run_construct_readOut _ hp hf hsteps
  have hsum : ((List.replicate k Instr.step).map shiftCount).sum = k := by simp [shiftCount]
  rw [List.length_replicate] at hrun
  rw [Engine.readOut_steps] at hout
  rw [hsum] at hlfsr
  refine ⟨t, ?_, hin, hout, Engine.generateSequence_length k e, ?_⟩
  · rw [bitAccesses_eq, hrun]
  · rw [hlfsr, lowBits_packBits (Nat.le_of_eq (Engine.after_length hf k))]

/-- The construction, and the payload ciphered and read out (42_keystream.md R120). -/
theorem run_construct_cipher (payload : List Byte) {s : State} {e : Engine} (hp : s.phase = .running)
    (hf : e.fits s.nmax = true) :
    ∃ t, run (3 + 2 * payload.length) (s.driven (configAccesses e ++ cipherAccesses payload)) = .next t
      ∧ t.phase = .running ∧ t.nmax = s.nmax ∧ t.inputs = s.inputs
      ∧ t.outputs.reverse = s.outputs.reverse ++ [.write .okay, .write .okay, .write .okay]
          ++ doutAnswers (e.cipherPayload payload)
      ∧ t.regs.lfsr = packBits (e.after (8 * payload.length)).state := by
  have hciphers : ∀ c ∈ payload.map Instr.cipher, isStepping c = true := by
    intro c hc
    obtain ⟨p, -, rfl⟩ := List.mem_map.1 hc
    rfl
  have hrun := run_construct_readOut _ hp hf hciphers
  have hsum : ((payload.map Instr.cipher).map shiftCount).sum = 8 * payload.length := by
    simp [shiftCount, Function.comp_def, Nat.mul_comm]
  rwa [List.length_map, ← cipherAccesses_eq, Engine.readOut_ciphers, hsum] at hrun

/-- Settles O22: `run_construct_cipher`. -/
theorem cipherReadsOutCipherFile : Obligations.CipherReadsOutCipherFile := by
  intro s e payload hp hf
  obtain ⟨t, hrun, -, -, hin, hout, hlfsr⟩ := run_construct_cipher payload hp hf
  exact ⟨t, hrun, hin, hout, hlfsr⟩

@[simp] theorem Engine.length_cipherPayload (e : Engine) (payload : List Byte) :
    (e.cipherPayload payload).length = payload.length := List.length_mapIdx

/-- The same keystream XORed in twice cancels (42_keystream.md, Properties the rules give). -/
theorem Engine.cipherPayload_cipherPayload (e : Engine) (payload : List Byte) :
    e.cipherPayload (e.cipherPayload payload) = payload := by
  apply List.ext_getElem
  · simp
  · intro i _ _
    simp [Engine.cipherPayload]

/-- Settles O23: both runs by `run_construct_cipher`, the second from where the first ended. -/
theorem cipherRoundTrip : Obligations.CipherRoundTrip := by
  intro s e payload hp hf
  obtain ⟨t, ht, htp, htn, -, htout, -⟩ := run_construct_cipher payload hp hf
  obtain ⟨u, hu, -, -, -, huout, -⟩ := run_construct_cipher (e.cipherPayload payload) htp (htn ▸ hf)
  rw [Engine.cipherPayload_cipherPayload] at huout
  exact ⟨e.cipherPayload payload, t, u, ht, Engine.length_cipherPayload e payload, htout, hu, huout⟩

/-! ### The assembler -/

theorem assemble_eq_none_iff (nmax : NMax) (program : List HostStmt) :
    assemble nmax program = none ↔ ∃ st ∈ program, HostStmt.wf nmax st = false := by
  simp [assemble]

theorem wfImm8_eq_false_iff (d : Int) : wfImm8 d = false ↔ d < 0 ∨ 255 < d := by
  simp only [wfImm8, Bool.and_eq_false_iff, decide_eq_false_iff_not, Int.not_le]

theorem wfTaps_eq_false_iff (nmax : NMax) (taps : List Int) :
    wfTaps nmax taps = false ↔ ∃ t ∈ taps, t < 0 ∨ (nmax.val : Int) ≤ t := by
  simp only [wfTaps, List.all_eq_false, Bool.and_eq_true, decide_eq_true_eq, not_and_or, Int.not_le, Int.not_lt]

theorem wfSeed_eq_false_iff (nmax : NMax) (bits : List Int) :
    wfSeed nmax bits = false ↔ bits = [] ∨ nmax.val < bits.length ∨ ∃ b ∈ bits, b ≠ 0 ∧ b ≠ 1 := by
  simp only [wfSeed, Bool.and_eq_false_iff, Bool.not_eq_false', List.isEmpty_iff, decide_eq_false_iff_not,
    Nat.not_le, List.all_eq_false, Bool.or_eq_true, decide_eq_true_eq, not_or, ne_eq, or_assoc]

/-- The statements an assembler refuses (30_encoding.md R77, R78; 92_eei_decisions.md D24). -/
theorem wf_eq_false_iff (nmax : NMax) (st : HostStmt) :
    HostStmt.wf nmax st = false ↔
      (∃ d, (st = .cipher d ∨ st = .xorByte d) ∧ (d < 0 ∨ 255 < d))
      ∨ (∃ taps bits, (st = .setTaps taps ∨ st = .new taps bits) ∧ ∃ t ∈ taps, t < 0 ∨ (nmax.val : Int) ≤ t)
      ∨ (∃ taps bits, (st = .seed bits ∨ st = .new taps bits) ∧
          (bits = [] ∨ nmax.val < bits.length ∨ ∃ b ∈ bits, b ≠ 0 ∧ b ≠ 1)) := by
  simp only [← wfImm8_eq_false_iff, ← wfTaps_eq_false_iff, ← wfSeed_eq_false_iff]
  cases st with
  | new taps bits => simp only [HostStmt.wf, Bool.and_eq_false_iff]; simp
  | _ => simp [HostStmt.wf]

/-- Settles O47: the assembler refuses a program that holds a statement `wf_eq_false_iff` names. -/
theorem assemblerRefusesMalformedStatements : Obligations.AssemblerRefusesMalformedStatements := by
  intro nmax program
  simp only [assemble_eq_none_iff, wf_eq_false_iff]

/-! ### NEW -/

/-- A seed's bits as the host writes them, 0 and 1. -/
theorem wfSeed_of_fits {nmax : NMax} {e : Engine} (hf : e.fits nmax = true) :
    wfSeed nmax (e.state.map fun b => if b then 1 else 0) = true := by
  have h1 := Engine.one_le_of_fits hf
  have hne : e.state ≠ [] := List.ne_nil_of_length_pos h1
  simp [wfSeed, hne, Engine.le_nmax_of_fits hf]

theorem wfTaps_of_fits {nmax : NMax} {e : Engine} (hf : e.fits nmax = true) :
    wfTaps nmax (e.taps.map Int.ofNat) = true := by
  obtain ⟨-, hle, -, hlt⟩ := (Engine.fits_iff nmax e).1 hf
  simpa [wfTaps] using fun t ht => Nat.lt_of_lt_of_le (hlt t ht) hle

/-- NEW's accesses are the three construction writes (30_encoding.md R78). -/
theorem stmtAccesses_new (e : Engine) :
    stmtAccesses (.new (e.taps.map Int.ofNat) (e.state.map fun b => if b then 1 else 0)) = configAccesses e := by
  have htaps : (e.taps.map Int.ofNat).map Int.toNat = e.taps := by
    rw [List.map_map]
    exact List.map_id _
  have hbits : ((e.state.map fun b => if b then (1 : Int) else 0).map fun b => decide (b = 1)) = e.state := by
    rw [List.map_map]
    exact (List.map_congr_left fun b _ => by cases b <;> rfl).trans (List.map_id _)
  rw [stmtAccesses, setTapsAccesses, seedAccesses, htaps, hbits, List.length_map]
  rfl

theorem assemble_new {nmax : NMax} {e : Engine} (hf : e.fits nmax = true) :
    assemble nmax [.new (e.taps.map Int.ofNat) (e.state.map fun b => if b then 1 else 0)]
      = some (configAccesses e) := by
  simp only [assemble, List.all_cons, List.all_nil, HostStmt.wf, wfTaps_of_fits hf, wfSeed_of_fits hf, Bool.and_self,
    if_true, List.flatMap_cons, List.flatMap_nil, stmtAccesses_new, List.append_nil]

/-- Settles O46: NEW's accesses construct the engine, which then passes the checks. -/
theorem newConfiguresTheEngine : Obligations.NewConfiguresTheEngine := by
  intro s e hp hf
  have hholds := s.construct_holds hf
  refine ⟨configAccesses e, s.construct e, assemble_new hf, ?_, hholds, hholds.configured hf, rfl, rfl⟩
  rw [← List.append_nil (configAccesses e)]
  exact run_configAccesses e hp [] 0

end Sys2Proof.Machine
end
